-- ==== Sys2Proof/Word.lean ====
section
/-! DEFINITION. The only element of every interface of the block: the 8-bit byte (00_scope.md R8). -/

namespace Sys2Proof

/-- A byte: 8 bits, bit 7 the most significant (R8). -/
abbrev Byte := BitVec 8

end Sys2Proof
end

