-- ==== Sys2Proof/Config.lean ====
section
/-! DEFINITION. What the spec leaves to an implementation: the bytes of IBUF that hold no value, and the two
parameters of a hardware realization (00_scope.md R7). -/

namespace Sys2Proof

/-- FREE VALUE. The `k`-th byte drawn for an IBUF position that holds no value (10_state.md R33, R34): it has no body,
so nothing can be proved about which byte it is. Log entry 7. -/
opaque Config.freeByte : Nat → Byte

/-- The two named parameters of a hardware realization (R7). The model itself bounds neither OPERAND nor IBUF, as R7
says; a realization is the record host actions are checked against (`HostAction.wf`). -/
structure Realization where
  /-- OPERAND_WIDTH, in bits. -/
  operandWidth : Nat
  /-- IBUF_CAP, in bytes. -/
  ibufCap : Nat
  deriving DecidableEq, Repr

/-- The defaults of R7. -/
def Realization.default : Realization := { operandWidth := 128, ibufCap := 16 }

end Sys2Proof
end

