-- ==== Sys2Proof/Syntax.lean ====
section
/-! DEFINITION. The 24 commands, the codec types and entry points they are made of, and what each agent can do:
the actions of host, stream source and stream sink, and the turns an agenda is made of. -/

namespace Sys2Proof

/-- The six codec types (00_scope.md R2, 30_encoding.md R63). -/
inductive CodecType where
  | varint | varlong | int | uint | long | ulong
  deriving DecidableEq, Repr

/-- The four entry points of each type (R2, R64). -/
inductive Op where
  | write | read | reads | writes
  deriving DecidableEq, Repr

/-- The 24 commands, one constructor per row of the opcode table (R65). No command word has an operand field (R62). -/
inductive Instr where
  | varintWrite | varintRead | varintReads | varintWrites
  | varlongWrite | varlongRead | varlongReads | varlongWrites
  | intWrite | intRead | intReads | intWrites
  | uintWrite | uintRead | uintReads | uintWrites
  | longWrite | longRead | longReads | longWrites
  | ulongWrite | ulongRead | ulongReads | ulongWrites
  deriving DecidableEq, Repr

/-- The interface registers of 10_state.md R14; a buffer register is read one byte at a time, by its index. -/
inductive Reg where
  | cmd
  | operand
  | ibufLen
  | ibuf (i : Nat)
  | stat
  | result
  | consumed
  | obufLen
  | obuf (i : Nat)
  deriving DecidableEq, Repr

/-- The registers R14 gives the host read access only. -/
inductive ReadOnlyReg where
  | stat | result | consumed | obufLen | obuf
  deriving DecidableEq, Repr

/-- What the host does (R12, R14, R26). -/
inductive HostAction where
  /-- CMD <- w: issues a command (R28). -/
  | writeCmd (w : Byte)
  /-- OPERAND <- v (R16). -/
  | writeOperand (v : Int)
  /-- IBUF[0..k) <- l and IBUF_LEN <- k, k the length of l (R17, R68, R138). -/
  | writeIbuf (l : List Byte)
  /-- IBUF[i] <- b. -/
  | writeIbufByte (i : Nat) (b : Byte)
  /-- IBUF_LEN <- n (R18). -/
  | writeIbufLen (n : Nat)
  /-- A write to a read-only register (R19). -/
  | writeReadOnly (r : ReadOnlyReg) (v : Nat)
  /-- A read of a register (R31 to R33). -/
  | read (r : Reg)
  deriving DecidableEq, Repr

/-- What the stream source does (R35). -/
inductive SourceAction where
  /-- Bytes arrive. -/
  | append (l : List Byte)
  /-- The source signals end of stream. -/
  | endStream
  deriving DecidableEq, Repr

/-- One turn of one agent. The codec's turn is one step of the command in progress, if it has one. -/
inductive Turn where
  | codec
  | host (a : HostAction)
  /-- The host waits for the end of the command in progress (R26, R68); meanwhile the codec moves. -/
  | awaitDone
  | source (a : SourceAction)
  /-- The sink becomes willing (`true`) or unwilling (`false`) to accept a list (20_memory.md R39). -/
  | sink (ready : Bool)
  /-- Reset (70_reset_and_hazards.md R132). -/
  | reset
  deriving DecidableEq, Repr

/-- A line of assembler (30_encoding.md R68). -/
inductive AsmLine where
  | write (ty : CodecType) (v : Int)
  | writes (ty : CodecType) (v : Int)
  | read (ty : CodecType) (l : List Byte)
  | reads (ty : CodecType)
  | raw (w : Byte)
  deriving DecidableEq, Repr

end Sys2Proof
end

