-- ==== Sys2Proof/WellFormed.lean ====
section
/-! DEFINITION. What is checked before a thing is presented to the block: the parameters of a realization, and the host
actions a realization can present (00_scope.md R7, 10_state.md R16 and R18). -/

namespace Sys2Proof

/-- The constraints of R7: OPERAND_WIDTH at least 66, IBUF_CAP at least 10. -/
def Realization.wf (r : Realization) : Bool :=
  decide (66 ≤ r.operandWidth) && decide (10 ≤ r.ibufCap)

/-- `v` fits the OPERAND register of `r`, two's complement (R16). -/
def Realization.fitsOperand (r : Realization) (v : Int) : Bool :=
  decide (-(2 ^ (r.operandWidth - 1)) ≤ v) && decide (v ≤ 2 ^ (r.operandWidth - 1) - 1)

/-- The host actions that a realization has (R16, R18): an operand it can hold, an input of at most IBUF_CAP bytes, an
IBUF_LEN of at most IBUF_CAP. -/
def HostAction.wf (r : Realization) : HostAction → Bool
  | .writeCmd _ => true
  | .writeOperand v => r.fitsOperand v
  | .writeIbuf l => decide (l.length ≤ r.ibufCap)
  | .writeIbufByte i _ => decide (i < r.ibufCap)
  | .writeIbufLen n => decide (n ≤ r.ibufCap)
  | .writeReadOnly _ _ => true
  | .read (.ibuf i) => decide (i < r.ibufCap)
  | .read (.obuf i) => decide (i < 10)
  | .read _ => true

/-- Every command is well formed: the command set has no operand field, so there is nothing a constructor could hold
out of range (30_encoding.md R62). -/
def Instr.wf (_ : Instr) : Bool := true

end Sys2Proof
end

