-- ==== Sys2Proof/Decode.lean ====
section
/-! DEFINITION. The command word (30_encoding.md Part B): its fields, the decoder, total on every word and rejecting
reserved words by name, and the encoder. -/

namespace Sys2Proof

/-- Why a word is reserved (R66). -/
inductive DecodeError where
  /-- CMD[7:5] is not 000. -/
  | reservedRsv
  /-- TYPE is 110 or 111. -/
  | reservedType
  deriving DecidableEq, Repr

/-- TYPE, CMD[2:0] (R62). -/
def typeField (w : Byte) : BitVec 3 := w.extractLsb' 0 3

/-- OP, CMD[4:3] (R62). -/
def opField (w : Byte) : BitVec 2 := w.extractLsb' 3 2

/-- RSV, CMD[7:5] (R62). -/
def rsvField (w : Byte) : BitVec 3 := w.extractLsb' 5 3

/-- The codec type a TYPE value names; 110 and 111 name none (R63). -/
def decodeType (t : BitVec 3) : Option CodecType :=
  match t.toNat with
  | 0 => some .varint
  | 1 => some .varlong
  | 2 => some .int
  | 3 => some .uint
  | 4 => some .long
  | 5 => some .ulong
  | _ => none

/-- The entry point an OP value names (R64). -/
def decodeOp (o : BitVec 2) : Op :=
  match o.toNat with
  | 0 => .write
  | 1 => .read
  | 2 => .reads
  | _ => .writes

/-- The command of one type and one entry point (R2). -/
def instrOf : CodecType → Op → Instr
  | .varint, .write => .varintWrite
  | .varint, .read => .varintRead
  | .varint, .reads => .varintReads
  | .varint, .writes => .varintWrites
  | .varlong, .write => .varlongWrite
  | .varlong, .read => .varlongRead
  | .varlong, .reads => .varlongReads
  | .varlong, .writes => .varlongWrites
  | .int, .write => .intWrite
  | .int, .read => .intRead
  | .int, .reads => .intReads
  | .int, .writes => .intWrites
  | .uint, .write => .uintWrite
  | .uint, .read => .uintRead
  | .uint, .reads => .uintReads
  | .uint, .writes => .uintWrites
  | .long, .write => .longWrite
  | .long, .read => .longRead
  | .long, .reads => .longReads
  | .long, .writes => .longWrites
  | .ulong, .write => .ulongWrite
  | .ulong, .read => .ulongRead
  | .ulong, .reads => .ulongReads
  | .ulong, .writes => .ulongWrites

/-- The codec type of a command. -/
def Instr.ty : Instr → CodecType
  | .varintWrite | .varintRead | .varintReads | .varintWrites => .varint
  | .varlongWrite | .varlongRead | .varlongReads | .varlongWrites => .varlong
  | .intWrite | .intRead | .intReads | .intWrites => .int
  | .uintWrite | .uintRead | .uintReads | .uintWrites => .uint
  | .longWrite | .longRead | .longReads | .longWrites => .long
  | .ulongWrite | .ulongRead | .ulongReads | .ulongWrites => .ulong

/-- The entry point of a command. -/
def Instr.op : Instr → Op
  | .varintWrite | .varlongWrite | .intWrite | .uintWrite | .longWrite | .ulongWrite => .write
  | .varintRead | .varlongRead | .intRead | .uintRead | .longRead | .ulongRead => .read
  | .varintReads | .varlongReads | .intReads | .uintReads | .longReads | .ulongReads => .reads
  | .varintWrites | .varlongWrites | .intWrites | .uintWrites | .longWrites | .ulongWrites => .writes

/-- The decoder: RSV first, then TYPE, then OP (R62 to R66). Every word decodes or is rejected by name. -/
def decode (w : Byte) : Except DecodeError Instr :=
  if rsvField w ≠ 0 then .error .reservedRsv
  else
    match decodeType (typeField w) with
    | none => .error .reservedType
    | some ty => .ok (instrOf ty (decodeOp (opField w)))

/-- The TYPE value of a codec type (R63). -/
def encodeType : CodecType → BitVec 3
  | .varint => 0b000
  | .varlong => 0b001
  | .int => 0b010
  | .uint => 0b011
  | .long => 0b100
  | .ulong => 0b101

/-- The OP value of an entry point (R64). -/
def encodeOp : Op → BitVec 2
  | .write => 0b00
  | .read => 0b01
  | .reads => 0b10
  | .writes => 0b11

/-- The encoder: RSV = 000, then OP, then TYPE, that is `OP << 3 | TYPE` (R65). -/
def encode (i : Instr) : Byte :=
  (0b000#3 ++ encodeOp i.op : BitVec 5) ++ encodeType i.ty

/-- The instruction the decoder reads from a table word of `nbits` bits: a command is one byte (R62), so a longer
word, or one with a bit at or above bit 8, is no command. -/
def decodeTableWord (nbits w : Nat) : Option Instr :=
  if nbits ≤ 8 ∧ w < 256 then
    match decode (BitVec.ofNat 8 w) with
    | .ok i => some i
    | .error _ => none
  else none

end Sys2Proof
end

