-- ==== Sys2Proof/Machine/State.lean ====
section
/-! DEFINITION. The state of the block and of the agents around it (10_state.md), as plain data, and the state right
after reset (R34). -/

namespace Sys2Proof.Machine

/-- The completion codes of STAT.STATUS (60_exceptions.md R115). -/
inductive Status where
  | ok | rangeError | shortInput | illegalCommand
  deriving DecidableEq, Repr

/-- The errors a command can raise (R115): every code but OK. -/
inductive ErrorCode where
  | rangeError | shortInput | illegalCommand
  deriving DecidableEq, Repr

/-- PHASE (10_state.md R25). -/
inductive Phase where
  | idle
  | streamRead (ty : CodecType)
  deriving DecidableEq, Repr

/-- What a host read returns: an 8-bit register or buffer byte, OPERAND, a count, or the 64-bit pattern of RESULT. -/
inductive HostValue where
  | byte (b : Byte)
  | integer (v : Int)
  | count (n : Nat)
  | pattern (p : BitVec 64)
  deriving DecidableEq, Repr

/-- Why the machine stops with a fault. Only a host read of something that holds no value raises one; no command does. -/
inductive Fault where
  /-- The host reads RESULT while RESULT_VALID = 0 (R32). Raised by `readReg`. Safe: a realization returns some pattern. -/
  | resultHoldsNoValue
  /-- The host reads an IBUF byte at or above IBUF_LEN (R33). Raised by `readReg`. Safe, for the same reason. -/
  | ibufByteHoldsNoValue
  /-- The host reads an OBUF byte at or above OBUF_LEN (R33). Raised by `readReg`. Safe, for the same reason. -/
  | obufByteHoldsNoValue
  deriving DecidableEq, Repr

/-- Why the model has no such step. -/
inductive Refusal where
  /-- A command that has no meaning yet: raised by `exec` only, and at present by no arm. Safe. -/
  | notModelled (mnemonic : String)
  /-- A host write of CMD while BUSY = 1, which the block does not take (R28, R135). Raised by `hostTurn`. Safe: the
  spec says the model has no such host step. -/
  | cmdWriteWhileBusy
  /-- The stream source appends or ends after it has signalled end of stream (R35). Raised by `sourceTurn`. Safe: the
  spec gives the source no such step. -/
  | sourceActsAfterEnd
  deriving DecidableEq, Repr

/-- Everything the spec gives the machine and the agents at its interfaces. IBUF_LEN and OBUF_LEN are the lengths of
`ibuf` and `obuf` (R18, R23), RESULT_VALID is whether `result` holds a value (R21): each is stored once. -/
structure State where
  /-- CMD: the last accepted command word (R14, R15). -/
  cmd : Byte
  /-- OPERAND, unbounded (R16). -/
  operand : Int
  /-- IBUF[0..IBUF_LEN) (R17, R18). -/
  ibuf : List Byte
  /-- STAT.BUSY (R19). -/
  busy : Bool
  /-- STAT.DONE (R19). -/
  done : Bool
  /-- STAT.STATUS (R19, R115). -/
  status : Status
  /-- RESULT (R21). -/
  result : Option Int
  /-- CONSUMED (R22). -/
  consumed : Nat
  /-- OBUF[0..OBUF_LEN) (R23). -/
  obuf : List Byte
  /-- ACC: the accumulated magnitude of a stream read (R25). -/
  acc : Nat
  /-- N: the stream bytes taken so far (R25). -/
  n : Nat
  /-- PHASE (R25). -/
  phase : Phase
  /-- SIN: bytes arrived and not taken, oldest first (R35). -/
  sin : List Byte
  /-- SIN_EOS: the source has signalled end of stream (R35). -/
  sinEos : Bool
  /-- SOUT: every byte the sink has accepted, oldest first (R35). -/
  sout : List Byte
  /-- The model's own: whether the sink accepts a list now (20_memory.md R39). Log entry 3. -/
  sinkReady : Bool
  /-- The model's own: the bytes a held WRITES latched at acceptance and offers the sink (R29, R39). Log entry 4. -/
  sinkOffer : Option (List Byte)
  /-- The model's own: the value the host's last read returned. Log entry 11. -/
  hostData : Option HostValue
  /-- The model's own: how many free bytes have been drawn. Log entry 7. -/
  freeCount : Nat
  /-- The model's own: the turns of the agents still to come. Log entries 1 and 2. -/
  agenda : List Turn
  deriving DecidableEq, Repr

/-- The state after reset: the values of R34; for the stream agents, which reset does not touch (R35), an empty open
stream and a willing sink (log entries 3 and 5); nothing on the agenda (log entry 2). -/
def State.reset : State where
  cmd := 0x00
  operand := 0
  ibuf := []
  busy := false
  done := false
  status := .ok
  result := none
  consumed := 0
  obuf := []
  acc := 0
  n := 0
  phase := .idle
  sin := []
  sinEos := false
  sout := []
  sinkReady := true
  sinkOffer := none
  hostData := none
  freeCount := 0
  agenda := []

end Sys2Proof.Machine
end

