-- ==== Sys2Proof/Machine/Flags.lean ====
section
/-! DEFINITION. STAT as the 8-bit register the host reads (10_state.md R19), RESULT as the 64-bit pattern it reads
(R21), and the numbers of the status codes (60_exceptions.md R115). -/

namespace Sys2Proof.Machine

/-- The number of a completion code (R115). -/
def Status.code : Status → BitVec 2
  | .ok => 0
  | .rangeError => 1
  | .shortInput => 2
  | .illegalCommand => 3

/-- The completion code an error is reported with (R115). -/
def ErrorCode.status : ErrorCode → Status
  | .rangeError => .rangeError
  | .shortInput => .shortInput
  | .illegalCommand => .illegalCommand

/-- STAT.RESULT_VALID: whether RESULT holds a value (R19, R21). -/
def State.resultValid (s : State) : Bool := s.result.isSome

/-- IBUF_LEN (R18). -/
def State.ibufLen (s : State) : Nat := s.ibuf.length

/-- OBUF_LEN (R24). -/
def State.obufLen (s : State) : Nat := s.obuf.length

/-- STAT (R19), from bit 7 down: two reserved bits, STATUS, a reserved bit, RESULT_VALID, DONE, BUSY. -/
def State.stat (s : State) : Byte :=
  (0b00#2 ++ s.status.code ++ 0b0#1 ++ BitVec.ofBool s.resultValid ++ BitVec.ofBool s.done ++ BitVec.ofBool s.busy : BitVec 8)

/-- The 64-bit pattern of a decoded value (R21): two's complement, which zero-extends a UInt and leaves a ULong as it is. -/
def resultPattern (v : Int) : BitVec 64 := BitVec.ofInt 64 v

end Sys2Proof.Machine
end

