-- ==== Sys2Proof/Machine/Operands.lean ====
section
/-! DEFINITION. The parameters of the six codec types, and the pure encode and decode routines: bytes, chunks, sign
recovery, VarEncode and VarDecode (40_varint.md R71 to R74), FixEncode and FixDecode (42_fixed_width.md R91, R92). -/

namespace Sys2Proof

/-- W: the width of a type's values in bits (00_scope.md R5). -/
def CodecType.width : CodecType → Nat
  | .varint | .int | .uint => 32
  | .varlong | .long | .ulong => 64

/-- Whether a type's values are signed (R5). -/
def CodecType.signed : CodecType → Bool
  | .varint | .varlong | .int | .long => true
  | .uint | .ulong => false

/-- The most bytes a read of the type takes (R6): CAP for the variable-length types, the width for the fixed ones. -/
def CodecType.cap : CodecType → Nat
  | .varint => 5
  | .varlong => 10
  | .int | .uint => 4
  | .long | .ulong => 8

/-- The least value of the type's domain (R5). -/
def CodecType.minValue (ty : CodecType) : Int :=
  if ty.signed then -(2 ^ (ty.width - 1)) else 0

/-- The greatest value of the type's domain (R5). -/
def CodecType.maxValue (ty : CodecType) : Int :=
  if ty.signed then 2 ^ (ty.width - 1) - 1 else 2 ^ ty.width - 1

/-- `v` lies in the type's domain (R5). -/
def CodecType.inDomain (ty : CodecType) (v : Int) : Bool :=
  decide (ty.minValue ≤ v) && decide (v ≤ ty.maxValue)

namespace Machine

/-- The payload `b[6:0]` of a variable-length byte (R8). -/
def payload (b : Byte) : Nat := (b &&& 0x7F#8).toNat

/-- The continuation flag `b[7]` (R8). -/
def moreFollow (b : Byte) : Bool := b.getLsbD 7

/-- `sext_W(u)` of R9, for `u` below `2^W`. -/
def sext (W u : Nat) : Int := if u.testBit (W - 1) then (u : Int) - 2 ^ W else u

/-- The chunking loop of R71 on a magnitude: the low 7 bits, bit 7 set while anything remains. The first argument
bounds the number of bytes. -/
def varChunks : Nat → Nat → List Byte
  | 0, _ => []
  | fuel + 1, u =>
    let b : Byte := BitVec.ofNat 8 (u &&& 0x7F)
    let rest := u >>> 7
    if rest ≠ 0 then (b ||| 0x80#8) :: varChunks fuel rest else [b]

/-- `VarEncode(v, W)` (R71): the range check, then the magnitude in at most ceil(W/7) bytes. -/
def varEncode (W : Nat) (v : Int) : Except ErrorCode (List Byte) :=
  if v < -(2 ^ (W - 1)) ∨ v > 2 ^ (W - 1) - 1 then .error .rangeError
  else
    let u : Nat := if v < 0 then (v + 2 ^ W).toNat else v.toNat
    .ok (varChunks ((W + 6) / 7) u)

/-- The loop of `VarDecode` (R72): `cap` bytes may still be taken, `acc` and `n` are the payload so far and the bytes
taken. It stops after a byte with bit 7 clear, after the cap, or when the input is exhausted. -/
def varDecodeLoop : (cap acc n : Nat) → List Byte → Nat × Nat
  | 0, acc, n, _ => (acc, n)
  | _ + 1, acc, n, [] => (acc, n)
  | cap + 1, acc, n, b :: rest =>
    let acc' := acc ||| (payload b <<< (7 * n))
    if moreFollow b then varDecodeLoop cap acc' (n + 1) rest else (acc', n + 1)

/-- The value of an accumulated magnitude: payload bits at and above bit W are discarded, then the sign is recovered
from bit W-1 (R73, R74). -/
def varValue (W acc : Nat) : Int := sext W (acc % 2 ^ W)

/-- `VarDecode(W, CAP)` of an input list (R72): the value and the number of bytes taken. -/
def varDecode (W cap : Nat) (input : List Byte) : Int × Nat :=
  let r := varDecodeLoop cap 0 0 input
  (varValue W r.1, r.2)

/-- `FixEncode(v, N, s)` (R91): the range check, then `v mod 2^(8N)` most significant byte first (R56, R57). -/
def fixEncode (N : Nat) (signed : Bool) (v : Int) : Except ErrorCode (List Byte) :=
  let W := 8 * N
  if signed && (decide (v < -(2 ^ (W - 1))) || decide (v > 2 ^ (W - 1) - 1)) then .error .rangeError
  else if !signed && (decide (v < 0) || decide (v > 2 ^ W - 1)) then .error .rangeError
  else
    let u : Nat := (v % 2 ^ W).toNat
    .ok ((List.range N).map fun i => BitVec.ofNat 8 (u >>> (8 * (N - 1 - i))))

/-- The big-endian sum of R92. -/
def fixMagnitude : List Byte → Nat
  | [] => 0
  | b :: rest => b.toNat * 2 ^ (8 * rest.length) + fixMagnitude rest

/-- The value of an N-byte magnitude (R92, R93). -/
def fixValue (N : Nat) (signed : Bool) (u : Nat) : Int := if signed then sext (8 * N) u else u

/-- `FixDecode(l, s)` (R92). -/
def fixDecode (signed : Bool) (l : List Byte) : Int := fixValue l.length signed (fixMagnitude l)

end Machine

end Sys2Proof
end

