-- ==== Sys2Proof/Machine/Ops.lean ====
section
/-! DEFINITION. The named operations the meanings are written with: acceptance and completion, raising an error, the
buffer and stream primitives of 00_scope.md R10, the register accesses of the host, and the four command shapes. -/

namespace Sys2Proof.Machine

/-- The outcome of one step of the machine. -/
abbrev Outcome := Host.Outcome State Fault Refusal

/-- Acceptance of a command word (10_state.md R28), but for running it. `phase` and `sinkOffer` are idle in every
reachable state that accepts. -/
def accept (w : Byte) (s : State) : State :=
  { s with
    cmd := w, busy := true, done := false, result := none, status := .ok, consumed := 0, obuf := [],
    acc := 0, n := 0, phase := .idle, sinkOffer := none }

/-- The end of a command with the given status (R30). The other outputs are written before, by the command's rule. -/
def finish (st : Status) (s : State) : State :=
  { s with status := st, busy := false, done := true, phase := .idle }

/-- `complete` of R10: STATUS = OK. -/
def complete (s : State) : State := finish .ok s

/-- `raise E` of R10: this is what taking an exception is on this block. It ends the command with the code of E,
writes no other output, and saves nothing and transfers no control, since there is no pc, mode or mask
(60_exceptions.md R114, R119, R123). There is no return from it (R124). -/
def raiseError (e : ErrorCode) (s : State) : State := finish e.status s

/-- `MemRead(addr, n)` of R10: bytes of IBUF. -/
def memRead (addr n : Nat) (s : State) : List Byte := (s.ibuf.drop addr).take n

/-- `MemWrite(0, len(l), l)` with `OBUF_LEN <- len(l)` (R10, R23, R24): OBUF is written from index 0 and never
otherwise. -/
def memWrite (l : List Byte) (s : State) : State := { s with obuf := l }

/-- The answers of `StreamRead()` (20_memory.md R36). -/
inductive StreamAnswer where
  | byte (b : Byte)
  | eos
  | hold
  deriving DecidableEq, Repr

/-- `StreamRead()` (R36): the answer, and the state with the byte taken. -/
def streamRead (s : State) : StreamAnswer × State :=
  match s.sin with
  | b :: rest => (.byte b, { s with sin := rest })
  | [] => (if s.sinEos then .eos else .hold, s)

/-- `StreamWrite(l)` and the end of its command (R38, R39): a willing sink takes the whole list in this step; otherwise
the list stays latched and offered, nothing is appended and the command holds. -/
def streamWrite (l : List Byte) (s : State) : State :=
  if s.sinkReady then complete { s with sout := s.sout ++ l, sinkOffer := none }
  else { s with sinkOffer := some l }

/-- A decoded value and the count of bytes it took, as a Read or ReadFromStream reports them (R21, R22). -/
def setResult (v : Int) (n : Nat) (s : State) : State := { s with result := some v, consumed := n }

/-- The shape of the six WRITE commands: encode OPERAND into OBUF, or raise and write nothing. -/
def writeCommand (enc : Int → Except ErrorCode (List Byte)) (s : State) : Outcome :=
  match enc s.operand with
  | .error e => .next (raiseError e s)
  | .ok l => .next (complete (memWrite l s))

/-- The shape of the six WRITES commands: in the accepting step encode OPERAND, or raise before any byte is offered
(R122); a held command offers the list it latched (R29, R39). -/
def writesCommand (enc : Int → Except ErrorCode (List Byte)) (s : State) : Outcome :=
  match s.sinkOffer with
  | some l => .next (streamWrite l s)
  | none =>
    match enc s.operand with
    | .error e => .next (raiseError e s)
    | .ok l => .next (streamWrite l s)

/-- The shape of the six READS commands: the accepting step enters STREAM_READ(T) with ACC = 0 and N = 0 (R25, R75,
R93); every later step is one step of the type's stream routine. -/
def readsCommand (ty : CodecType) (byteStep : State → State) (s : State) : Outcome :=
  match s.phase with
  | .idle => .next { s with phase := .streamRead ty, acc := 0, n := 0 }
  | .streamRead _ => .next (byteStep s)

/-- The variable-length READ commands (40_varint.md R78, 41_varlong.md R86): they never raise. -/
def varReadCommand (W cap : Nat) (s : State) : Outcome :=
  let r := varDecode W cap s.ibuf
  .next (complete (setResult r.1 r.2 s))

/-- The `finish` of `VarStreamStep` (R75). -/
def varStreamFinish (W : Nat) (s : State) : State := complete (setResult (varValue W s.acc) s.n s)

/-- `VarStreamStep(W, CAP)` (R75): one codec step. A step that holds changes nothing. -/
def varStreamStep (W cap : Nat) (s : State) : State :=
  match streamRead s with
  | (.hold, _) => s
  | (.eos, _) => varStreamFinish W s
  | (.byte b, s') =>
    let t := { s' with acc := s'.acc ||| (payload b <<< (7 * s'.n)), n := s'.n + 1 }
    if !moreFollow b || t.n == cap then varStreamFinish W t else t

/-- The fixed-width READ commands (42_fixed_width.md R96 and its kin): the first N bytes, or SHORT_INPUT. -/
def fixReadCommand (N : Nat) (signed : Bool) (s : State) : Outcome :=
  if s.ibufLen < N then .next (raiseError .shortInput s)
  else .next (complete (setResult (fixDecode signed (memRead 0 N s)) N s))

/-- `FixStreamStep(NB, s)` (R93): one codec step. A step that holds changes nothing. -/
def fixStreamStep (NB : Nat) (signed : Bool) (s : State) : State :=
  match streamRead s with
  | (.hold, _) => s
  | (.eos, _) => raiseError .shortInput { s with consumed := s.n }
  | (.byte b, s') =>
    let t := { s' with acc := s'.acc * 256 + b.toNat, n := s'.n + 1 }
    if t.n == NB then complete (setResult (fixValue NB signed t.acc) NB t) else t

/-- A host read of a register (R14, R31): the value, or the fault of a place that holds none (R32, R33). -/
def readReg (r : Reg) (s : State) : Except Fault HostValue :=
  match r with
  | .cmd => .ok (.byte s.cmd)
  | .operand => .ok (.integer s.operand)
  | .ibufLen => .ok (.count s.ibufLen)
  | .ibuf i =>
    match s.ibuf[i]? with
    | some b => .ok (.byte b)
    | none => .error .ibufByteHoldsNoValue
  | .stat => .ok (.byte s.stat)
  | .result =>
    match s.result with
    | some v => .ok (.pattern (resultPattern v))
    | none => .error .resultHoldsNoValue
  | .consumed => .ok (.count s.consumed)
  | .obufLen => .ok (.count s.obufLen)
  | .obuf i =>
    match s.obuf[i]? with
    | some b => .ok (.byte b)
    | none => .error .obufByteHoldsNoValue

/-- A host write of IBUF_LEN alone (R14, R18): lowering it takes the bytes above out of the input; raising it brings
in bytes that hold no value (R33), each a free value. Log entries 6 and 7. -/
def setIbufLen (n : Nat) (s : State) : State :=
  let missing := n - s.ibuf.length
  { s with
    ibuf := s.ibuf.take n ++ (List.range missing).map fun k => Config.freeByte (s.freeCount + k),
    freeCount := s.freeCount + missing }

/-- Reset applied to a running machine (70_reset_and_hazards.md R132): every register takes its reset value and a
command in progress is gone; the stream agents' state, what the host last read and the turns still to come stay (R35). -/
def applyReset (s : State) : State :=
  { State.reset with
    sin := s.sin, sinEos := s.sinEos, sout := s.sout, sinkReady := s.sinkReady,
    hostData := s.hostData, freeCount := s.freeCount, agenda := s.agenda }

end Sys2Proof.Machine
end

