-- ==== Sys2Proof/Machine/Fixed.lean ====
section
/-! DEFINITION. The fixed-width commands (42_fixed_width.md R95 to R110), with the parameters of R94: N = 4 bytes for Int
and UInt, 8 for Long and ULong; Int and Long signed, UInt and ULong unsigned. -/

namespace Sys2Proof.Machine

/-- INT.WRITE (R95). -/
def execIntWrite (s : State) : Outcome := writeCommand (fixEncode 4 true) s

/-- INT.READ (R96). -/
def execIntRead (s : State) : Outcome := fixReadCommand 4 true s

/-- INT.READS (R97). -/
def execIntReads (s : State) : Outcome := readsCommand .int (fixStreamStep 4 true) s

/-- INT.WRITES (R98). -/
def execIntWrites (s : State) : Outcome := writesCommand (fixEncode 4 true) s

/-- UINT.WRITE (R99). -/
def execUintWrite (s : State) : Outcome := writeCommand (fixEncode 4 false) s

/-- UINT.READ (R100). -/
def execUintRead (s : State) : Outcome := fixReadCommand 4 false s

/-- UINT.READS (R101). -/
def execUintReads (s : State) : Outcome := readsCommand .uint (fixStreamStep 4 false) s

/-- UINT.WRITES (R102). -/
def execUintWrites (s : State) : Outcome := writesCommand (fixEncode 4 false) s

/-- LONG.WRITE (R103). -/
def execLongWrite (s : State) : Outcome := writeCommand (fixEncode 8 true) s

/-- LONG.READ (R104). -/
def execLongRead (s : State) : Outcome := fixReadCommand 8 true s

/-- LONG.READS (R105). -/
def execLongReads (s : State) : Outcome := readsCommand .long (fixStreamStep 8 true) s

/-- LONG.WRITES (R106). -/
def execLongWrites (s : State) : Outcome := writesCommand (fixEncode 8 true) s

/-- ULONG.WRITE (R107). -/
def execUlongWrite (s : State) : Outcome := writeCommand (fixEncode 8 false) s

/-- ULONG.READ (R108). -/
def execUlongRead (s : State) : Outcome := fixReadCommand 8 false s

/-- ULONG.READS (R109). -/
def execUlongReads (s : State) : Outcome := readsCommand .ulong (fixStreamStep 8 false) s

/-- ULONG.WRITES (R110). -/
def execUlongWrites (s : State) : Outcome := writesCommand (fixEncode 8 false) s

end Sys2Proof.Machine
end

