-- ==== Sys2Proof/Machine/VarInt.lean ====
section
/-! DEFINITION. The VarInt commands (40_varint.md R77 to R80): W = 32, CAP = 5. -/

namespace Sys2Proof.Machine

/-- VARINT.WRITE (R77). -/
def execVarintWrite (s : State) : Outcome := writeCommand (varEncode 32) s

/-- VARINT.READ (R78). -/
def execVarintRead (s : State) : Outcome := varReadCommand 32 5 s

/-- VARINT.READS (R79). -/
def execVarintReads (s : State) : Outcome := readsCommand .varint (varStreamStep 32 5) s

/-- VARINT.WRITES (R80). -/
def execVarintWrites (s : State) : Outcome := writesCommand (varEncode 32) s

end Sys2Proof.Machine
end

