-- ==== Sys2Proof/Machine/VarLong.lean ====
section
/-! DEFINITION. The VarLong commands (41_varlong.md R85 to R88): W = 64, CAP = 10 (R84). -/

namespace Sys2Proof.Machine

/-- VARLONG.WRITE (R85). -/
def execVarlongWrite (s : State) : Outcome := writeCommand (varEncode 64) s

/-- VARLONG.READ (R86). -/
def execVarlongRead (s : State) : Outcome := varReadCommand 64 10 s

/-- VARLONG.READS (R87). -/
def execVarlongReads (s : State) : Outcome := readsCommand .varlong (varStreamStep 64 10) s

/-- VARLONG.WRITES (R88). -/
def execVarlongWrites (s : State) : Outcome := writesCommand (varEncode 64) s

end Sys2Proof.Machine
end

