-- ==== Sys2Proof/Machine/Dispatch.lean ====
section
/-! DEFINITION. One arm per command: which meaning it has. -/

namespace Sys2Proof.Machine

-- A command's meaning is one codec step of it, the accepting step included: a READS or a held WRITES runs it again.
def exec (i : Instr) (s : State) : Host.Outcome State Fault Refusal :=
  match i with
  | .varintWrite => Sys2Proof.Machine.execVarintWrite s
  | .varintRead => Sys2Proof.Machine.execVarintRead s
  | .varintReads => Sys2Proof.Machine.execVarintReads s
  | .varintWrites => Sys2Proof.Machine.execVarintWrites s
  | .varlongWrite => Sys2Proof.Machine.execVarlongWrite s
  | .varlongRead => Sys2Proof.Machine.execVarlongRead s
  | .varlongReads => Sys2Proof.Machine.execVarlongReads s
  | .varlongWrites => Sys2Proof.Machine.execVarlongWrites s
  | .intWrite => Sys2Proof.Machine.execIntWrite s
  | .intRead => Sys2Proof.Machine.execIntRead s
  | .intReads => Sys2Proof.Machine.execIntReads s
  | .intWrites => Sys2Proof.Machine.execIntWrites s
  | .uintWrite => Sys2Proof.Machine.execUintWrite s
  | .uintRead => Sys2Proof.Machine.execUintRead s
  | .uintReads => Sys2Proof.Machine.execUintReads s
  | .uintWrites => Sys2Proof.Machine.execUintWrites s
  | .longWrite => Sys2Proof.Machine.execLongWrite s
  | .longRead => Sys2Proof.Machine.execLongRead s
  | .longReads => Sys2Proof.Machine.execLongReads s
  | .longWrites => Sys2Proof.Machine.execLongWrites s
  | .ulongWrite => Sys2Proof.Machine.execUlongWrite s
  | .ulongRead => Sys2Proof.Machine.execUlongRead s
  | .ulongReads => Sys2Proof.Machine.execUlongReads s
  | .ulongWrites => Sys2Proof.Machine.execUlongWrites s

end Sys2Proof.Machine
end

