-- ==== Sys2Proof/Machine/Agents.lean ====
section
/-! DEFINITION. What one turn of each agent does (10_state.md R12): the codec, the host, the stream source, the stream
sink, and reset; and the assembler lines that stand for host actions (30_encoding.md R68). -/

namespace Sys2Proof.Machine

/-- Run the command CMD holds: its meaning, or ILLEGAL_COMMAND for a reserved word, examined before anything else and
with no other effect (60_exceptions.md R118, R122). -/
def runCommand (s : State) : Outcome :=
  match decode s.cmd with
  | .ok i => exec i s
  | .error _ => .next (raiseError .illegalCommand s)

/-- The codec's turn: one step of the command in progress. With none in progress the block waits (R26), and a held
command's step leaves the state as it is (R36, R39). -/
def codecTurn (s : State) : Outcome :=
  if s.busy then runCommand s else .next s

/-- The host's turn (R14, R28 to R33). -/
def hostTurn (a : HostAction) (s : State) : Outcome :=
  match a with
  | .writeCmd w => if s.busy then .refused .cmdWriteWhileBusy else runCommand (accept w s)
  | .writeOperand v => .next { s with operand := v }
  | .writeIbuf l => .next { s with ibuf := l }
  | .writeIbufByte i b => .next { s with ibuf := s.ibuf.set i b }
  | .writeIbufLen n => .next (setIbufLen n s)
  | .writeReadOnly _ _ => .next s
  | .read r =>
    match readReg r s with
    | .ok v => .next { s with hostData := some v }
    | .error f => .fault f

/-- The stream source's turn (R35): it appends or ends while it has not ended, and never afterwards. -/
def sourceTurn (a : SourceAction) (s : State) : Outcome :=
  if s.sinEos then .refused .sourceActsAfterEnd
  else
    match a with
    | .append l => .next { s with sin := s.sin ++ l }
    | .endStream => .next { s with sinEos := true }

/-- One turn. A host that waits for the end of a command lets the codec move and goes on waiting (R26, R68). -/
def runTurn (turn : Turn) (s : State) : Outcome :=
  match turn with
  | .codec => codecTurn s
  | .host a => hostTurn a s
  | .awaitDone => if s.busy then codecTurn { s with agenda := .awaitDone :: s.agenda } else .next s
  | .source a => sourceTurn a s
  | .sink ready => .next { s with sinkReady := ready }
  | .reset => .next (applyReset s)

/-- The host actions an assembler line stands for (R68). -/
def asmActions : AsmLine → List HostAction
  | .write ty v => [.writeOperand v, .writeCmd (encode (instrOf ty .write))]
  | .writes ty v => [.writeOperand v, .writeCmd (encode (instrOf ty .writes))]
  | .read ty l => [.writeIbuf l, .writeCmd (encode (instrOf ty .read))]
  | .reads ty => [.writeCmd (encode (instrOf ty .reads))]
  | .raw w => [.writeCmd w]

/-- The turns of an assembler line: its host actions, then the implicit wait for DONE (R68). -/
def asmTurns (line : AsmLine) : List Turn := (asmActions line).map .host ++ [.awaitDone]

/-- A state in which the next turn is the host's write of `w` to CMD, and the block takes it: no command is in
progress. -/
def placeCommand (w : Byte) (s : State) : State :=
  { s with busy := false, phase := .idle, sinkOffer := none, agenda := .host (.writeCmd w) :: s.agenda }

end Sys2Proof.Machine
end

