-- ==== Sys2Proof/Machine/Step.lean ====
section
/-! DEFINITION. One step of the machine: the next turn of the agenda, or the codec's when the agenda is empty. -/

namespace Sys2Proof.Machine

/-- One step. The block fetches nothing (10_state.md R26): a command comes from a host turn. Log entry 1. -/
def step (s : State) : Host.Outcome State Fault Refusal :=
  match s.agenda with
  | [] => codecTurn s
  | turn :: rest => runTurn turn { s with agenda := rest }

/-- `s` with the command word `w` about to be written to CMD by the host, so that the very next step accepts and runs
it. A command is one byte, so only the low 8 bits count. Log entry 2. -/
def State.withFetchWord (s : State) (_nbits w : Nat) : State := placeCommand (BitVec.ofNat 8 w) s

end Sys2Proof.Machine
end

