-- ==== Sys2Proof/Safety.lean ====
section
/-! DEFINITION. What counts as a sound state of the block, and the spec's own notions, written apart from the model's
routines, that claims about it are stated in. -/

namespace Sys2Proof

/-- The two ends of each type's domain, as numbers (00_scope.md R5, 42_fixed_width.md R94). -/
def domainLow : CodecType → Int
  | .varint | .int => -2147483648
  | .varlong | .long => -9223372036854775808
  | .uint | .ulong => 0

/-- The upper end of each type's domain (R5, R94). -/
def domainHigh : CodecType → Int
  | .varint | .int => 2147483647
  | .uint => 4294967295
  | .varlong | .long => 9223372036854775807
  | .ulong => 18446744073709551615

/-- VarInt and VarLong (R1). -/
def CodecType.isVariable : CodecType → Bool
  | .varint | .varlong => true
  | .int | .uint | .long | .ulong => false

/-- The bits one byte of a type's encoding carries: 7 of a variable-length byte, 8 of a fixed-width one (R54, R56). -/
def CodecType.bitsPerByte (ty : CodecType) : Nat := if ty.isVariable then 7 else 8

/-- `l` is the variable-length wire format of the magnitude `u` (30_encoding.md R54, R55): the least number of bytes
that holds `u`, least-significant chunk first, the continuation flag on every byte but the last. -/
def isVarWire (u : Nat) (l : List Byte) : Prop :=
  1 ≤ l.length ∧ u < 2 ^ (7 * l.length) ∧ (∀ m, 1 ≤ m → u < 2 ^ (7 * m) → l.length ≤ m) ∧
    ∀ i b, l[i]? = some b →
      b.toNat % 128 = u / 2 ^ (7 * i) % 128 ∧ b.toNat / 128 = if i + 1 < l.length then 1 else 0

/-- `l` is the big-endian wire format of `u` in `N` bytes (R56, R57). -/
def isFixedWire (N u : Nat) (l : List Byte) : Prop :=
  l.length = N ∧ ∀ i b, l[i]? = some b → b.toNat = u / 2 ^ (8 * (N - 1 - i)) % 256

/-- `n` is the number of bytes a variable-length decode takes from `l` under a cap (R59): it goes on after a byte with
bit 7 set, and stops after one with bit 7 clear, at the cap, or at the end of the input. -/
def isVarTaken (cap : Nat) (l : List Byte) (n : Nat) : Prop :=
  n ≤ cap ∧ n ≤ l.length ∧ (∀ i b, i + 1 < n → l[i]? = some b → 128 ≤ b.toNat) ∧
    (n = cap ∨ n = l.length ∨ ∃ b, 0 < n ∧ l[n - 1]? = some b ∧ b.toNat < 128)

/-- The sum of the payloads of the first `n` bytes of `l`, byte `i` at bit position `7 i` (R61). -/
def payloadSum (l : List Byte) (n : Nat) : Nat :=
  ∑ i ∈ Finset.range n, (l.getD i 0).toNat % 128 * 2 ^ (7 * i)

/-- The big-endian sum of a byte list (R61, R92). -/
def bigEndianSum (l : List Byte) : Nat :=
  ∑ i ∈ Finset.range l.length, (l.getD i 0).toNat * 2 ^ (8 * (l.length - 1 - i))

/-- The two's complement reading of a `W`-bit magnitude (00_scope.md R9, 40_varint.md R74). -/
def twosComplement (W m : Nat) : Int := if m < 2 ^ (W - 1) then m else (m : Int) - 2 ^ W

namespace Machine

/-- A completed command's end (10_state.md R30): the status, BUSY 0, DONE 1, PHASE IDLE, and nothing else. -/
def State.completedWith (st : Status) (s : State) : State :=
  { s with status := st, busy := false, done := true, phase := .idle }

/-- What the host sees of a command's outcome: STAT, RESULT, CONSUMED, OBUF_LEN and OBUF (R14). -/
def State.outputs (s : State) : Byte × Option Int × Nat × Nat × List Byte :=
  (s.stat, s.result, s.consumed, s.obufLen, s.obuf)

/-- `k` steps of the machine, stopping at the first fault or refusal. -/
def stepN : Nat → State → Host.Outcome State Fault Refusal
  | 0, s => .next s
  | k + 1, s =>
    match step s with
    | .next t => stepN k t
    | .fault f => .fault f
    | .refused r => .refused r

/-- The bytes the stream source delivers in a list of turns, in order. -/
def delivered : List Turn → List Byte
  | [] => []
  | .source (.append l) :: rest => l ++ delivered rest
  | _ :: rest => delivered rest

/-- A turn of the codec or of the stream source, and of no other agent. -/
def isCodecOrSource : Turn → Bool
  | .codec => true
  | .source _ => true
  | _ => false

/-- A ReadFromStream of type `ty` has just been accepted: STREAM_READ(ty), nothing taken yet (R25). -/
def State.readsAccepted (ty : CodecType) (s : State) : Prop :=
  s.phase = .streamRead ty ∧ decode s.cmd = .ok (instrOf ty .reads) ∧ s.busy = true ∧ s.done = false ∧
    s.acc = 0 ∧ s.n = 0

/-- The sound states: what the rules of 10_state.md promise of every state the block can be in. -/
structure State.Inv (s : State) : Prop where
  /-- BUSY and DONE never hold together (R19). -/
  busyXorDone : ¬(s.busy = true ∧ s.done = true)
  /-- Until a command has completed, the response registers are as acceptance or reset left them (R20, R28, R34). -/
  clearedUntilDone : s.done = false → s.status = .ok ∧ s.result = none ∧ s.consumed = 0 ∧ s.obuf = []
  /-- In STREAM_READ(T) the READS command of T is in progress, fewer than the cap bytes are taken, and ACC is a sum of
  that many bytes (R25). -/
  streamRead : ∀ ty, s.phase = .streamRead ty →
    s.busy = true ∧ s.sinkOffer = none ∧ decode s.cmd = .ok (instrOf ty .reads) ∧ s.n < ty.cap ∧
      s.acc < 2 ^ (ty.bitsPerByte * s.n)
  /-- Bytes offered to the sink are the encoding a WRITES command in progress holds (R39). -/
  offer : ∀ l, s.sinkOffer = some l →
    s.busy = true ∧ s.phase = .idle ∧ 1 ≤ l.length ∧ l.length ≤ 10 ∧ ∃ ty, decode s.cmd = .ok (instrOf ty .writes)
  /-- A busy block is in a stream read or holds on the sink: no other command outlives its accepting step (R25, R30). -/
  busyHolds : s.busy = true → s.phase ≠ .idle ∨ s.sinkOffer ≠ none
  /-- The widths of R14 and R25. -/
  widths : s.consumed ≤ 10 ∧ s.obuf.length ≤ 10 ∧ s.n ≤ 10 ∧ s.acc < 2 ^ 70
  /-- After an error RESULT and OBUF hold nothing (R119). -/
  errorOutputs : s.status ≠ .ok → s.result = none ∧ s.obuf = []
  /-- RESULT is a value of the domain of the type CMD names, decoded by a Read or ReadFromStream (R21). -/
  resultTyped : ∀ v, s.result = some v → ∃ i, decode s.cmd = .ok i ∧ (i.op = .read ∨ i.op = .reads) ∧
    domainLow i.ty ≤ v ∧ v ≤ domainHigh i.ty
  /-- OBUF holds bytes only after a Write (R23, R24). -/
  obufTyped : s.obuf ≠ [] → ∃ i, decode s.cmd = .ok i ∧ i.op = .write
  /-- CONSUMED is nonzero only after a Read or ReadFromStream (R22). -/
  consumedTyped : s.consumed ≠ 0 → ∃ i, decode s.cmd = .ok i ∧ (i.op = .read ∨ i.op = .reads)

end Machine

end Sys2Proof
end

