-- ==== Sys2Proof/Certificates/Slice0/Obligations.lean ====
section
/-! DEFINITION. The statements for the provers, in the order of the rules of spec/ they come from. `completedWith st s`
is `s` with STATUS = st, BUSY = 0, DONE = 1 and PHASE = IDLE, so a statement that `exec` answers such a state with some
fields replaced says the result, the completion and the frame at once. -/

open Sys2Proof Sys2Proof.Machine

/-! ## Command words, acceptance, reset -/

/-- R65: the 24 command words, and `OP << 3 | TYPE`. -/
def Obligations.CommandWordsOfTheTable : Prop :=
  (decode 0x00 = .ok .varintWrite ∧ decode 0x01 = .ok .varlongWrite ∧ decode 0x02 = .ok .intWrite ∧
    decode 0x03 = .ok .uintWrite ∧ decode 0x04 = .ok .longWrite ∧ decode 0x05 = .ok .ulongWrite) ∧
  (decode 0x08 = .ok .varintRead ∧ decode 0x09 = .ok .varlongRead ∧ decode 0x0A = .ok .intRead ∧
    decode 0x0B = .ok .uintRead ∧ decode 0x0C = .ok .longRead ∧ decode 0x0D = .ok .ulongRead) ∧
  (decode 0x10 = .ok .varintReads ∧ decode 0x11 = .ok .varlongReads ∧ decode 0x12 = .ok .intReads ∧
    decode 0x13 = .ok .uintReads ∧ decode 0x14 = .ok .longReads ∧ decode 0x15 = .ok .ulongReads) ∧
  (decode 0x18 = .ok .varintWrites ∧ decode 0x19 = .ok .varlongWrites ∧ decode 0x1A = .ok .intWrites ∧
    decode 0x1B = .ok .uintWrites ∧ decode 0x1C = .ok .longWrites ∧ decode 0x1D = .ok .ulongWrites) ∧
  ∀ i : Instr, (encode i).toNat = (encodeOp i.op).toNat * 8 + (encodeType i.ty).toNat

/-- R63, R65, R66: decoding and encoding agree both ways, and the words rejected are exactly the reserved ones. -/
def Obligations.DecodeAndEncodeAgree : Prop :=
  (∀ i : Instr, decode (encode i) = .ok i) ∧
  (∀ (w : Byte) (i : Instr), decode w = .ok i → encode i = w) ∧
  (∀ w : Byte, (∃ e, decode w = .error e) ↔ 32 ≤ w.toNat ∨ 6 ≤ w.toNat % 8)

/-- R28: a host write of CMD while BUSY = 0 accepts, and the command runs in the same step; while BUSY = 1 the model has
no such step. PHASE and the model's own SINK_OFFER are idle in every reachable state that accepts, and acceptance leaves
them so. -/
def Obligations.StepRunsTheCommandWritten : Prop :=
  ∀ (s : State) (w : Byte) (rest : List Turn), s.agenda = .host (.writeCmd w) :: rest →
    (s.busy = false → ∀ i, decode w = .ok i →
      step s = exec i { s with
        agenda := rest, cmd := w, busy := true, done := false, result := none, status := .ok, consumed := 0,
        obuf := [], acc := 0, n := 0, phase := .idle, sinkOffer := none }) ∧
    (s.busy = true → step s = .refused .cmdWriteWhileBusy)

/-- A turn of the codec runs the command in progress: an explicit turn, a turn the waiting host leaves to it, or the
default turn of an empty agenda (the scheduling is the model's choice, log entry 1). With no command in progress the
block waits (R26). -/
def Obligations.CodecTurnRunsTheCommandInProgress : Prop :=
  ∀ s : State,
    (s.busy = true → ∀ i, decode s.cmd = .ok i →
      (s.agenda = [] → step s = exec i s) ∧
      (∀ rest, s.agenda = .codec :: rest → step s = exec i { s with agenda := rest }) ∧
      (∀ rest, s.agenda = .awaitDone :: rest → step s = exec i s)) ∧
    (s.busy = false →
      (s.agenda = [] → step s = .next s) ∧
      (∀ rest, s.agenda = .codec :: rest → step s = .next { s with agenda := rest }) ∧
      (∀ rest, s.agenda = .awaitDone :: rest → step s = .next { s with agenda := rest }))

/-- R66, R118: every reserved word is accepted and completes in the same step with ILLEGAL_COMMAND; no input is read,
no byte is written, taken or sent. That acceptance also sets PHASE to IDLE and clears the model's own SINK_OFFER is the
model's reading (log entries 4 and 13); in every sound state that accepts they are so already. -/
def Obligations.ReservedWordCompletesIllegal : Prop :=
  ∀ (s : State) (w : Byte) (rest : List Turn), (32 ≤ w.toNat ∨ 6 ≤ w.toNat % 8) →
    s.agenda = .host (.writeCmd w) :: rest → s.busy = false →
    step s = .next { s with
      agenda := rest, cmd := w, busy := false, done := true, status := .illegalCommand, result := none,
      consumed := 0, obuf := [], acc := 0, n := 0, phase := .idle, sinkOffer := none }

/-- R34, as the spec gives the values: what `State.reset` holds in every register; and the block is idle (R133). -/
def Obligations.ResetValues : Prop :=
  State.reset.cmd = 0x00 ∧ State.reset.operand = 0 ∧ State.reset.ibufLen = 0 ∧ State.reset.stat = 0x00 ∧
    State.reset.result = none ∧ State.reset.consumed = 0 ∧ State.reset.obufLen = 0 ∧ State.reset.acc = 0 ∧
    State.reset.n = 0 ∧ State.reset.phase = .idle ∧
    (∀ i, readReg (.ibuf i) State.reset = .error .ibufByteHoldsNoValue) ∧
    (∀ i, readReg (.obuf i) State.reset = .error .obufByteHoldsNoValue)

/-- R132: reset at any time ends a command in progress without a status, every register takes the value of R34, and the
stream agents' state does not change. -/
def Obligations.ResetAtAnyTime : Prop :=
  ∀ (s : State) (rest : List Turn), s.agenda = .reset :: rest →
    ∃ t, step s = .next t ∧
      t.cmd = 0x00 ∧ t.operand = 0 ∧ t.ibuf = [] ∧ t.stat = 0x00 ∧ t.result = none ∧ t.consumed = 0 ∧ t.obuf = [] ∧
      t.acc = 0 ∧ t.n = 0 ∧ t.phase = .idle ∧ t.sinkOffer = none ∧
      t.sin = s.sin ∧ t.sinEos = s.sinEos ∧ t.sout = s.sout ∧ t.sinkReady = s.sinkReady ∧
      t.hostData = s.hostData ∧ t.freeCount = s.freeCount ∧ t.agenda = rest

/-! ## Registers as the host sees them -/

/-- R19, R115: the fields of STAT, its reserved bits, and the numbers of the status codes. -/
def Obligations.StatFields : Prop :=
  ∀ s : State,
    s.stat.getLsbD 0 = s.busy ∧ s.stat.getLsbD 1 = s.done ∧ s.stat.getLsbD 2 = s.result.isSome ∧
    s.stat.getLsbD 3 = false ∧ s.stat.getLsbD 6 = false ∧ s.stat.getLsbD 7 = false ∧
    s.stat.toNat / 16 % 4 =
      (match s.status with | .ok => 0 | .rangeError => 1 | .shortInput => 2 | .illegalCommand => 3)

/-- R21: the 64-bit pattern of a value of a type's domain means the value, signed or unsigned by the type; for UInt its
high half is zero. -/
def Obligations.ResultPatternMeansTheValue : Prop :=
  ∀ (ty : CodecType) (v : Int), domainLow ty ≤ v → v ≤ domainHigh ty →
    (ty.signed = true → (resultPattern v).toInt = v) ∧
    (ty.signed = false → ((resultPattern v).toNat : Int) = v) ∧
    (ty = .uint → (resultPattern v).toNat < 2 ^ 32)

/-- R31, R32, R33: what a host read of each register returns, that it changes nothing else, and that reading a place
that holds no value stops. -/
def Obligations.HostReads : Prop :=
  ∀ (s : State) (r : Reg) (rest : List Turn), s.agenda = .host (.read r) :: rest →
    let got (v : HostValue) : Prop := step s = .next { s with agenda := rest, hostData := some v }
    match r with
    | .cmd => got (.byte s.cmd)
    | .operand => got (.integer s.operand)
    | .ibufLen => got (.count s.ibuf.length)
    | .ibuf i => (∀ b, s.ibuf[i]? = some b → got (.byte b)) ∧
        (s.ibuf.length ≤ i → step s = .fault .ibufByteHoldsNoValue)
    | .stat => got (.byte s.stat)
    | .result => (∀ v, s.result = some v → got (.pattern (resultPattern v))) ∧
        (s.result = none → step s = .fault .resultHoldsNoValue)
    | .consumed => got (.count s.consumed)
    | .obufLen => got (.count s.obuf.length)
    | .obuf i => (∀ b, s.obuf[i]? = some b → got (.byte b)) ∧
        (s.obuf.length ≤ i → step s = .fault .obufByteHoldsNoValue)

/-- The host's writes of the input registers and of read-only registers (R14, R16, R17, R19). That an IBUF byte written
at or above IBUF_LEN is not kept, and that bytes a raised IBUF_LEN brings in are free, are the model's choices (log
entries 6 and 7): here only the bytes already in the input are claimed. -/
def Obligations.HostWritesOfInputs : Prop :=
  ∀ (s : State) (rest : List Turn),
    (∀ v, s.agenda = .host (.writeOperand v) :: rest → step s = .next { s with agenda := rest, operand := v }) ∧
    (∀ l, s.agenda = .host (.writeIbuf l) :: rest → step s = .next { s with agenda := rest, ibuf := l }) ∧
    (∀ i b, s.agenda = .host (.writeIbufByte i b) :: rest → i < s.ibuf.length →
      ∃ l, step s = .next { s with agenda := rest, ibuf := l } ∧ l.length = s.ibuf.length ∧ l[i]? = some b ∧
        ∀ j, j ≠ i → l[j]? = s.ibuf[j]?) ∧
    (∀ k, s.agenda = .host (.writeIbufLen k) :: rest →
      ∃ l c, step s = .next { s with agenda := rest, ibuf := l, freeCount := c } ∧ l.length = k ∧
        (∀ j, j < k → j < s.ibuf.length → l[j]? = s.ibuf[j]?) ∧ (k ≤ s.ibuf.length → c = s.freeCount)) ∧
    (∀ r v, s.agenda = .host (.writeReadOnly r v) :: rest → step s = .next { s with agenda := rest })

/-- R7, R16: every legal realization can present [-2^65, 2^65-1], which holds every domain and the first value beyond
each end of each. -/
def Obligations.RealizationPresentsEveryBoundary : Prop :=
  ∀ r : Realization, r.wf = true →
    (∀ v : Int, -(2 ^ 65) ≤ v → v ≤ 2 ^ 65 - 1 → HostAction.wf r (.writeOperand v) = true) ∧
    ∀ ty : CodecType, -(2 ^ 65) ≤ domainLow ty - 1 ∧ domainHigh ty + 1 ≤ 2 ^ 65 - 1

/-! ## Write commands -/

/-- R54, R55: VARINT.WRITE and VARLONG.WRITE of a value of the domain put its wire format into OBUF and complete; every
other part of the state is as it was. -/
def Obligations.VariableWriteEmitsTheWireFormat : Prop :=
  ∀ (s : State) (i : Instr) (W cap : Nat),
    (i = .varintWrite ∧ W = 32 ∧ cap = 5 ∨ i = .varlongWrite ∧ W = 64 ∧ cap = 10) →
    -(2 ^ (W - 1)) ≤ s.operand → s.operand ≤ 2 ^ (W - 1) - 1 →
    ∃ l, exec i s = .next (State.completedWith .ok { s with obuf := l }) ∧
      isVarWire (s.operand % 2 ^ W).toNat l ∧ l.length ≤ cap ∧
      ∀ b, l.length = cap → l[cap - 1]? = some b → b.toNat < 2 ^ (W - 7 * (cap - 1))

/-- R58: the encoded length of a variable-length value by its magnitude, and the length of every negative value. -/
def Obligations.VariableEncodedLength : Prop :=
  ∀ (s : State) (i : Instr) (W : Nat), (i = .varintWrite ∧ W = 32 ∨ i = .varlongWrite ∧ W = 64) →
    -(2 ^ (W - 1)) ≤ s.operand → s.operand ≤ 2 ^ (W - 1) - 1 →
    ∃ t, exec i s = .next t ∧
      (let u := s.operand % 2 ^ W
       t.obufLen =
        if u < 2 ^ 7 then 1 else if u < 2 ^ 14 then 2 else if u < 2 ^ 21 then 3 else if u < 2 ^ 28 then 4
        else if u < 2 ^ 35 then 5 else if u < 2 ^ 42 then 6 else if u < 2 ^ 49 then 7 else if u < 2 ^ 56 then 8
        else if u < 2 ^ 63 then 9 else 10) ∧
      (s.operand < 0 → t.obufLen = if W = 32 then 5 else 10) ∧ 1 ≤ t.obufLen ∧ (W = 32 → t.obufLen ≤ 5)

/-- R56, R57: the four fixed-width WRITE commands put the big-endian bytes of `v mod 2^(8N)` into OBUF and complete, the
signed and the unsigned command of one width the same bytes; every other part of the state is as it was. -/
def Obligations.FixedWriteIsBigEndian : Prop :=
  ∀ (s : State) (N : Nat), N = 4 ∨ N = 8 →
    ∃ l, isFixedWire N (s.operand % 2 ^ (8 * N)).toNat l ∧
      ∀ i : Instr, ((i = .intWrite ∨ i = .uintWrite) ∧ N = 4 ∨ (i = .longWrite ∨ i = .ulongWrite) ∧ N = 8) →
        domainLow i.ty ≤ s.operand → s.operand ≤ domainHigh i.ty →
        exec i s = .next (State.completedWith .ok { s with obuf := l })

/-- R83, R90, R112, R116: a WRITE or WRITES of a value outside the type's domain completes with RANGE_ERROR, and writes
and sends nothing. A held WRITES has already passed the check, so for WRITES this is the accepting step. -/
def Obligations.OutOfRangeOperandIsRejected : Prop :=
  ∀ (s : State) (i : Instr), (i.op = .write ∨ i.op = .writes ∧ s.sinkOffer = none) →
    (s.operand < domainLow i.ty ∨ domainHigh i.ty < s.operand) →
    exec i s = .next (State.completedWith .rangeError s)

/-- R38: with a willing sink a WRITES appends, in the accepting step, exactly the bytes the WRITE of the same value puts
into OBUF, and nothing before, after or inside them. It writes no OBUF and no other output. -/
def Obligations.WritesSendsWhatWriteStores : Prop :=
  ∀ (s : State) (ty : CodecType), s.sinkReady = true → s.sinkOffer = none →
    domainLow ty ≤ s.operand → s.operand ≤ domainHigh ty →
    ∃ l, exec (instrOf ty .write) s = .next (State.completedWith .ok { s with obuf := l }) ∧
      exec (instrOf ty .writes) s = .next (State.completedWith .ok { s with sout := s.sout ++ l })

/-- R39: with an unwilling sink a WRITES holds, nothing appended; it stays held, for ever if the sink never accepts,
whatever the host writes to OPERAND; and when the sink accepts, the next codec step appends the whole list the value
latched at acceptance encodes to, and completes. -/
def Obligations.WritesHoldsUntilTheSinkAccepts : Prop :=
  ∀ (s : State) (ty : CodecType), s.sinkReady = false → s.sinkOffer = none →
    domainLow ty ≤ s.operand → s.operand ≤ domainHigh ty →
    ∃ l, exec (instrOf ty .write) s = .next (State.completedWith .ok { s with obuf := l }) ∧
      exec (instrOf ty .writes) s = .next { s with sinkOffer := some l } ∧
      ∀ v : Int,
        exec (instrOf ty .writes) { s with sinkOffer := some l, operand := v } =
          .next { s with sinkOffer := some l, operand := v } ∧
        exec (instrOf ty .writes) { s with sinkOffer := some l, operand := v, sinkReady := true } =
          .next (State.completedWith .ok { s with operand := v, sinkReady := true, sout := s.sout ++ l })

/-- R24: OBUF_LEN when a command has ended or holds: by type after a WRITE that completed with OK, 0 after every other
command. -/
def Obligations.ObufLenAfterEachCommand : Prop :=
  ∀ (s t : State) (w : Byte) (rest : List Turn), s.agenda = .host (.writeCmd w) :: rest → step s = .next t →
    (∀ i, decode w = .ok i → i.op = .write → t.status = .ok →
      1 ≤ t.obufLen ∧
      match i.ty with
      | .varint => t.obufLen ≤ 5
      | .varlong => t.obufLen ≤ 10
      | .int | .uint => t.obufLen = 4
      | .long | .ulong => t.obufLen = 8) ∧
    ((∀ i, decode w = .ok i → i.op ≠ .write) ∨ t.status ≠ .ok → t.obufLen = 0)

/-! ## Buffer reads -/

/-- R59, R72, R74: VARINT.READ and VARLONG.READ of any input complete with OK and the value of the bytes the decode
takes, its payload bits at and above bit W discarded and its sign recovered; every other part of the state, IBUF with it,
is as it was. A decode of fewer than the cap's bytes is non-negative. -/
def Obligations.VariableReadDecodes : Prop :=
  ∀ (s : State) (i : Instr) (W cap : Nat),
    (i = .varintRead ∧ W = 32 ∧ cap = 5 ∨ i = .varlongRead ∧ W = 64 ∧ cap = 10) →
    ∃ n v, exec i s = .next (State.completedWith .ok { s with result := some v, consumed := n }) ∧
      isVarTaken cap s.ibuf n ∧ v = twosComplement W (payloadSum s.ibuf n % 2 ^ W) ∧ (n < cap → 0 ≤ v)

/-- R92 (with R96, R100, R104, R108): a fixed-width READ decodes the first N bytes of IBUF, or completes with
SHORT_INPUT when there are fewer; every other part of the state, IBUF with it, is as it was. -/
def Obligations.FixedReadDecodes : Prop :=
  ∀ (s : State) (i : Instr) (N : Nat),
    ((i = .intRead ∨ i = .uintRead) ∧ N = 4 ∨ (i = .longRead ∨ i = .ulongRead) ∧ N = 8) →
    (N ≤ s.ibuf.length →
      let u := bigEndianSum (s.ibuf.take N)
      let v : Int := if i.ty.signed then twosComplement (8 * N) u else u
      exec i s = .next (State.completedWith .ok { s with result := some v, consumed := N }) ∧
        domainLow i.ty ≤ v ∧ v ≤ domainHigh i.ty) ∧
    (s.ibuf.length < N → exec i s = .next (State.completedWith .shortInput s))

/-- R113: Int and UInt, and Long and ULong, encode the values both hold to the same bytes, and decode the same bytes to
values that are equal, or differ by 2^W when the first byte has bit 7 set. -/
def Obligations.SignedAndUnsignedShareBytes : Prop :=
  ∀ (a b : CodecType) (W : Nat), (a = .int ∧ b = .uint ∧ W = 32 ∨ a = .long ∧ b = .ulong ∧ W = 64) →
    (∀ s : State, 0 ≤ s.operand → s.operand ≤ 2 ^ (W - 1) - 1 →
      ∃ t, exec (instrOf a .write) s = .next t ∧ exec (instrOf b .write) s = .next t ∧ t.status = .ok ∧
        t.obufLen = W / 8) ∧
    (∀ (s : State) (first : Byte), s.ibuf.head? = some first → W / 8 ≤ s.ibuf.length →
      ∃ t u x y, exec (instrOf a .read) s = .next t ∧ exec (instrOf b .read) s = .next u ∧
        t.result = some x ∧ u.result = some y ∧ y = if 128 ≤ first.toNat then x + 2 ^ W else x)

/-! ## Round trips -/

/-- R81, R82: VARINT.WRITE of a value of the domain, and VARINT.READ of the bytes it produced followed by any others,
gives the value back, consumes exactly those bytes, and leaves the others as the remainder. -/
def Obligations.VarIntRoundTrip : Prop :=
  ∀ s : State, -(2 ^ 31) ≤ s.operand → s.operand ≤ 2 ^ 31 - 1 →
    ∃ t, exec .varintWrite s = .next t ∧ t.status = .ok ∧
      ∀ (u : State) (x : List Byte), u.ibuf = t.obuf ++ x →
        ∃ r, exec .varintRead u = .next r ∧ r.status = .ok ∧ r.result = some s.operand ∧
          r.consumed = t.obufLen ∧ r.ibuf.drop r.consumed = x

/-- R89: the same of VarLong. -/
def Obligations.VarLongRoundTrip : Prop :=
  ∀ s : State, -(2 ^ 63) ≤ s.operand → s.operand ≤ 2 ^ 63 - 1 →
    ∃ t, exec .varlongWrite s = .next t ∧ t.status = .ok ∧
      ∀ (u : State) (x : List Byte), u.ibuf = t.obuf ++ x →
        ∃ r, exec .varlongRead u = .next r ∧ r.status = .ok ∧ r.result = some s.operand ∧
          r.consumed = t.obufLen ∧ r.ibuf.drop r.consumed = x

/-- R111: the same of each fixed-width type over its domain, with CONSUMED = N. -/
def Obligations.FixedRoundTrip : Prop :=
  ∀ (s : State) (ty : CodecType) (N : Nat), (ty = .int ∨ ty = .uint) ∧ N = 4 ∨ (ty = .long ∨ ty = .ulong) ∧ N = 8 →
    domainLow ty ≤ s.operand → s.operand ≤ domainHigh ty →
    ∃ t, exec (instrOf ty .write) s = .next t ∧ t.status = .ok ∧
      ∀ (u : State) (x : List Byte), u.ibuf = t.obuf ++ x →
        ∃ r, exec (instrOf ty .read) u = .next r ∧ r.status = .ok ∧ r.result = some s.operand ∧
          r.consumed = N ∧ t.obufLen = N ∧ r.ibuf.drop r.consumed = x

/-! ## Stream reads -/

/-- R36: the stream primitive. It takes the head of SIN, answers end of stream when the source has ended and holds
nothing, and holds otherwise. -/
def Obligations.StreamReadPrimitive : Prop :=
  ∀ s : State,
    (∀ b rest, s.sin = b :: rest → streamRead s = (.byte b, { s with sin := rest })) ∧
    (s.sin = [] → s.sinEos = true → streamRead s = (.eos, s)) ∧
    (s.sin = [] → s.sinEos = false → streamRead s = (.hold, s))

/-- The accepting step of the six READS commands enters STREAM_READ(T) with ACC = 0 and N = 0 and takes no byte (R25,
R75, R93; that acceptance takes no byte is read from R143, log entry 13). -/
def Obligations.ReadsBegins : Prop :=
  ∀ (s : State) (ty : CodecType), s.phase = .idle →
    exec (instrOf ty .reads) s = .next { s with phase := .streamRead ty, acc := 0, n := 0 }

/-- R75: one codec step of VARINT.READS and VARLONG.READS: hold, end of stream, a byte that ends the value, a byte that
does not. -/
def Obligations.VariableStreamStep : Prop :=
  ∀ (s : State) (i : Instr) (W cap : Nat),
    (i = .varintReads ∧ W = 32 ∧ cap = 5 ∨ i = .varlongReads ∧ W = 64 ∧ cap = 10) → s.phase = .streamRead i.ty →
    (s.sin = [] → s.sinEos = false → exec i s = .next s) ∧
    (s.sin = [] → s.sinEos = true →
      exec i s = .next (State.completedWith .ok
        { s with result := some (twosComplement W (s.acc % 2 ^ W)), consumed := s.n })) ∧
    (∀ b rest, s.sin = b :: rest →
      let acc' := s.acc ||| (b.toNat % 128) * 2 ^ (7 * s.n)
      (b.toNat < 128 ∨ s.n + 1 = cap →
        exec i s = .next (State.completedWith .ok
          { s with sin := rest, acc := acc', n := s.n + 1,
                   result := some (twosComplement W (acc' % 2 ^ W)), consumed := s.n + 1 })) ∧
      (128 ≤ b.toNat → s.n + 1 ≠ cap →
        exec i s = .next { s with sin := rest, acc := acc', n := s.n + 1 }))

/-- R93: one codec step of the four fixed-width READS commands: hold, end of stream with SHORT_INPUT and the bytes taken
in CONSUMED, the last byte, an earlier byte. -/
def Obligations.FixedStreamStep : Prop :=
  ∀ (s : State) (i : Instr) (NB : Nat),
    ((i = .intReads ∨ i = .uintReads) ∧ NB = 4 ∨ (i = .longReads ∨ i = .ulongReads) ∧ NB = 8) →
    s.phase = .streamRead i.ty → s.acc < 2 ^ (8 * s.n) →
    (s.sin = [] → s.sinEos = false → exec i s = .next s) ∧
    (s.sin = [] → s.sinEos = true → exec i s = .next (State.completedWith .shortInput { s with consumed := s.n })) ∧
    (∀ b rest, s.sin = b :: rest →
      let acc' := s.acc * 256 + b.toNat
      (s.n + 1 = NB →
        exec i s = .next (State.completedWith .ok
          { s with sin := rest, acc := acc', n := s.n + 1, consumed := NB,
                   result := some (if i.ty.signed then twosComplement (8 * NB) acc' else acc') })) ∧
      (s.n + 1 ≠ NB → exec i s = .next { s with sin := rest, acc := acc', n := s.n + 1 }))

/-- R76: however the source's deliveries and its end are interleaved with the codec's steps, a variable-length READS
ends with the RESULT and CONSUMED of the READ of the bytes delivered, and leaves the rest in SIN, as soon as they hold a
terminating byte or CAP bytes, or the stream has ended; before that it holds, with every byte taken. The steps after the
listed turns are the codec's. -/
def Obligations.StreamReadAgreesWithBufferRead : Prop :=
  ∀ (s t : State) (ty : CodecType) (turns : List Turn) (k : Nat), ty.isVariable = true →
    s.readsAccepted ty → s.agenda = turns → turns.all isCodecOrSource = true → ty.cap + 1 ≤ k →
    stepN (turns.length + k) s = .next t →
    let l := s.sin ++ delivered turns
    if t.sinEos = true ∨ (∃ b ∈ l.take ty.cap, b.toNat < 128) ∨ ty.cap ≤ l.length then
      ∃ u, exec (instrOf ty .read) { s with ibuf := l } = .next u ∧
        t.busy = false ∧ t.done = true ∧ t.status = .ok ∧ t.result = u.result ∧ t.consumed = u.consumed ∧
        t.sin = l.drop u.consumed
    else t.busy = true ∧ t.done = false ∧ t.sin = [] ∧ t.n = l.length

/-- R93 in any timing: a fixed-width READS takes exactly its NB bytes and decodes them as the READ does, leaving the
rest in SIN; if the stream ends before, it completes with SHORT_INPUT, and the bytes taken are lost and counted; while
the stream is short and open, it holds. -/
def Obligations.FixedStreamReadInAnyTiming : Prop :=
  ∀ (s t : State) (ty : CodecType) (turns : List Turn) (k : Nat), ty.isVariable = false →
    s.readsAccepted ty → s.agenda = turns → turns.all isCodecOrSource = true → ty.cap + 1 ≤ k →
    stepN (turns.length + k) s = .next t →
    let l := s.sin ++ delivered turns
    if ty.cap ≤ l.length then
      ∃ u, exec (instrOf ty .read) { s with ibuf := l } = .next u ∧
        t.busy = false ∧ t.done = true ∧ t.status = .ok ∧ t.result = u.result ∧ t.consumed = ty.cap ∧
        t.sin = l.drop ty.cap
    else if t.sinEos = true then
      t.busy = false ∧ t.done = true ∧ t.status = .shortInput ∧ t.result = s.result ∧ t.consumed = l.length ∧ t.sin = []
    else t.busy = true ∧ t.done = false ∧ t.sin = [] ∧ t.n = l.length

/-- R93, R143, for a stream that has all the bytes: the fixed-width READS takes one step a byte, NB in all. -/
def Obligations.FixedStreamReadTakesItsWidth : Prop :=
  ∀ (s : State) (ty : CodecType) (l rest : List Byte), ty.isVariable = false → s.readsAccepted ty → s.agenda = [] →
    l.length = ty.cap → s.sin = l ++ rest →
    let v : Int := if ty.signed then twosComplement (8 * ty.cap) (bigEndianSum l) else bigEndianSum l
    stepN ty.cap s = .next (State.completedWith .ok
      { s with sin := rest, acc := bigEndianSum l, n := ty.cap, result := some v, consumed := ty.cap })

/-! ## Rules of the whole machine -/

/-- R11: whatever the command word, the operand, the input and the streams, writing CMD to a block that is not busy has
an outcome, and so has every codec step of a command in progress: no command ever stops the machine. -/
def Obligations.EveryCommandHasAnOutcome : Prop :=
  (∀ (s : State) (w : Byte) (rest : List Turn), s.agenda = .host (.writeCmd w) :: rest → s.busy = false →
    ∃ t, step s = .next t) ∧
  (∀ s : State, ∃ t, codecTurn s = .next t) ∧
  (∀ (i : Instr) (s : State), ∃ t, exec i s = .next t)

/-- The machine stops only on a turn of an outside agent: a host read of a place that holds no value (R32, R33), a host
CMD write while BUSY (R28), and a source action after its end (R35). -/
def Obligations.OnlyOutsideAgentsStop : Prop :=
  ∀ s : State,
    (∀ f, step s = .fault f → ∃ r rest, s.agenda = .host (.read r) :: rest ∧
      (r = .result ∧ s.result = none ∨ (∃ i, r = .ibuf i ∧ s.ibuf.length ≤ i) ∨ ∃ i, r = .obuf i ∧ s.obuf.length ≤ i)) ∧
    (∀ x, step s = .refused x →
      (x = .cmdWriteWhileBusy ∧ s.busy = true ∧ ∃ w rest, s.agenda = .host (.writeCmd w) :: rest) ∨
      (x = .sourceActsAfterEnd ∧ s.sinEos = true ∧ ∃ a rest, s.agenda = .source a :: rest))

/-- R30: a codec step of a command either completes it (BUSY 0, DONE 1, PHASE IDLE) or leaves it in progress with
nothing reported; and only READS and WRITES are ever left in progress (R143). -/
def Obligations.CompletesOrStaysInProgress : Prop :=
  ∀ (i : Instr) (s t : State), exec i s = .next t →
    (t.busy = false ∧ t.done = true ∧ t.phase = .idle) ∨
    (t.busy = s.busy ∧ t.done = s.done ∧ t.outputs = s.outputs ∧
      ((i.op = .reads ∧ t.phase ≠ .idle) ∨
       (i.op = .writes ∧ t.phase = s.phase ∧ t.sinkReady = false ∧ t.sinkOffer ≠ none)))

/-- R117, R122: which error a completing command reports, and when: RANGE_ERROR exactly for an out-of-range WRITE or
WRITES, SHORT_INPUT exactly for a fixed-width READ of too few bytes or a fixed-width READS at end of stream, and
ILLEGAL_COMMAND never from a legal command. -/
def Obligations.WhichErrorAndWhen : Prop :=
  ∀ (i : Instr) (s t : State), s.done = false → exec i s = .next t → t.done = true →
    (t.status = .rangeError ↔
      (i.op = .write ∨ i.op = .writes ∧ s.sinkOffer = none) ∧
        (s.operand < domainLow i.ty ∨ domainHigh i.ty < s.operand)) ∧
    (t.status = .shortInput ↔
      i.ty.isVariable = false ∧
        (i.op = .read ∧ s.ibuf.length < i.ty.cap ∨ i.op = .reads ∧ s.sin = [] ∧ s.sinEos = true)) ∧
    t.status ≠ .illegalCommand

/-- R119: the outputs of a command that ends with another status than OK. -/
def Obligations.OutputsAfterAnError : Prop :=
  ∀ s t : State, s.Inv → step s = .next t → (s.busy = true ∨ ∃ w rest, s.agenda = .host (.writeCmd w) :: rest) →
    t.done = true → t.status ≠ .ok →
    t.obufLen = 0 ∧ t.sout = s.sout ∧ t.resultValid = false ∧
      ((∃ ty, decode t.cmd = .ok (instrOf ty .reads)) → t.status = .shortInput ∧ t.consumed = t.n) ∧
      ((∀ ty, decode t.cmd ≠ .ok (instrOf ty .reads)) → t.consumed = 0)

/-- R52, and the frame of every command: no command writes CMD, OPERAND, IBUF or IBUF_LEN, ends the stream, or touches
what belongs to the other agents. -/
def Obligations.NoCommandWritesItsInputs : Prop :=
  ∀ (i : Instr) (s t : State), exec i s = .next t →
    t.cmd = s.cmd ∧ t.operand = s.operand ∧ t.ibufLen = s.ibufLen ∧ (∀ a : Nat, t.ibuf[a]? = s.ibuf[a]?) ∧
    t.sinEos = s.sinEos ∧ t.sinkReady = s.sinkReady ∧ t.hostData = s.hostData ∧ t.freeCount = s.freeCount ∧
    t.agenda = s.agenda

/-- The frame of each command shape: what a WRITE, READ, READS or WRITES leaves as it was, beyond
`NoCommandWritesItsInputs` (R40, R41, R45). The destinations are OBUF of a WRITE, RESULT and CONSUMED of a READ, those
with SIN, ACC and N of a READS, and SOUT and the latched offer of a WRITES; STAT and PHASE change with completion. -/
def Obligations.FrameOfEachCommandShape : Prop :=
  ∀ (i : Instr) (s t : State), exec i s = .next t →
    match i.op with
    | .write => t.result = s.result ∧ t.consumed = s.consumed ∧ t.acc = s.acc ∧ t.n = s.n ∧ t.sin = s.sin ∧
        t.sout = s.sout ∧ t.sinkOffer = s.sinkOffer
    | .read => (∀ a : Nat, t.obuf[a]? = s.obuf[a]?) ∧ t.acc = s.acc ∧ t.n = s.n ∧ t.sin = s.sin ∧ t.sout = s.sout ∧
        t.sinkOffer = s.sinkOffer
    | .reads => (∀ a : Nat, t.obuf[a]? = s.obuf[a]?) ∧ t.sout = s.sout ∧ t.sinkOffer = s.sinkOffer ∧
        (t.sin = s.sin ∨ ∃ b, s.sin = b :: t.sin)
    | .writes => (∀ a : Nat, t.obuf[a]? = s.obuf[a]?) ∧ t.result = s.result ∧ t.consumed = s.consumed ∧
        t.acc = s.acc ∧ t.n = s.n ∧ t.sin = s.sin ∧ s.sout <+: t.sout

/-- R49: SIN changes only by losing its head to the codec or gaining bytes at its end, SOUT only gains bytes at its end,
and SIN_EOS is never taken back; by any step, reset included. -/
def Obligations.StreamsAreFirstInFirstOut : Prop :=
  ∀ s t : State, step s = .next t →
    (t.sin = s.sin ∨ (∃ b, s.sin = b :: t.sin) ∨ ∃ l, t.sin = s.sin ++ l) ∧ s.sout <+: t.sout ∧
    (s.sinEos = true → t.sinEos = true)

/-- R31: the response registers keep the values of the last completed command until the next command is accepted (or
reset is applied). -/
def Obligations.ResponsesKeptUntilTheNextCommand : Prop :=
  ∀ s t : State, step s = .next t → s.busy = false →
    (∀ w rest, s.agenda ≠ .host (.writeCmd w) :: rest) → (∀ rest, s.agenda ≠ .reset :: rest) →
    t.outputs = s.outputs ∧ t.done = s.done ∧ t.busy = false

/-- R29: once a command is in progress, what the host writes to OPERAND, IBUF and IBUF_LEN reaches the register and has
no effect on the command. That a WRITES is held exactly while it has an offer latched is the model's reading (log entry
4). -/
def Obligations.InputsAreLatchedAtAcceptance : Prop :=
  ∀ (i : Instr) (s t : State) (v : Int) (l : List Byte),
    (i.op = .reads ∧ s.phase = .streamRead i.ty ∨ i.op = .writes ∧ s.sinkOffer ≠ none) →
    exec i s = .next t →
    exec i { s with operand := v, ibuf := l } = .next { t with operand := v, ibuf := l }

/-- R13, R70: a command's outputs depend on the inputs its entry point reads, and on nothing else the state holds, an
earlier command's results included: two blocks that are to accept the same command and agree on those inputs (OPERAND for
WRITE; the first cap bytes of IBUF for READ; OPERAND and the sink for WRITES) end the step with the same outputs, and
send the same bytes; and so do two codec steps of a READS that agree on its progress and on the stream source. That the latched offer agrees
too is about the model's own field (log entry 4). -/
def Obligations.IgnoredInputsHaveNoEffect : Prop :=
  (∀ (s₁ s₂ t₁ t₂ : State) (w : Byte) (i : Instr) (r₁ r₂ : List Turn), decode w = .ok i →
    s₁.agenda = .host (.writeCmd w) :: r₁ → s₂.agenda = .host (.writeCmd w) :: r₂ →
    step s₁ = .next t₁ → step s₂ = .next t₂ →
    (match i.op with
      | .write => s₁.operand = s₂.operand
      | .read => s₁.ibuf.take i.ty.cap = s₂.ibuf.take i.ty.cap
      | .reads => True
      | .writes => s₁.operand = s₂.operand ∧ s₁.sinkReady = s₂.sinkReady) →
    t₁.outputs = t₂.outputs ∧ t₁.phase = t₂.phase ∧ t₁.sinkOffer = t₂.sinkOffer ∧
      ∃ sent, t₁.sout = s₁.sout ++ sent ∧ t₂.sout = s₂.sout ++ sent) ∧
  (∀ (i : Instr) (s₁ s₂ t₁ t₂ : State), i.op = .reads → s₁.phase = .streamRead i.ty → s₂.phase = .streamRead i.ty →
    s₁.acc = s₂.acc → s₁.n = s₂.n → s₁.sin = s₂.sin → s₁.sinEos = s₂.sinEos → s₁.outputs = s₂.outputs →
    exec i s₁ = .next t₁ → exec i s₂ = .next t₂ →
    t₁.outputs = t₂.outputs ∧ t₁.acc = t₂.acc ∧ t₁.n = t₂.n ∧ t₁.sin = t₂.sin ∧ t₁.phase = t₂.phase)

/-- The stream agents' own turns (R35, R39): the source appends at the end of SIN or ends the stream, while it has not
ended; the sink changes only whether it accepts. -/
def Obligations.StreamAgentTurns : Prop :=
  ∀ (s : State) (rest : List Turn),
    (∀ l, s.agenda = .source (.append l) :: rest → s.sinEos = false →
      step s = .next { s with agenda := rest, sin := s.sin ++ l }) ∧
    (s.agenda = .source .endStream :: rest → s.sinEos = false → step s = .next { s with agenda := rest, sinEos := true }) ∧
    (∀ r, s.agenda = .sink r :: rest → step s = .next { s with agenda := rest, sinkReady := r })

/-- R68: an assembler line stands for its host actions: two steps of a line with an operand, or one of a line without,
run the line's command as the host's CMD write does, on the operand or the input the line gives; a raw line runs the word
it gives, reserved or not. -/
def Obligations.AssemblerLinesRunTheirCommand : Prop :=
  ∀ (s : State) (ty : CodecType) (rest : List Turn), s.busy = false →
    (∀ v, s.agenda = asmTurns (.write ty v) ++ rest →
      stepN 2 s = exec (instrOf ty .write)
        (accept (encode (instrOf ty .write)) { s with operand := v, agenda := .awaitDone :: rest })) ∧
    (∀ v, s.agenda = asmTurns (.writes ty v) ++ rest →
      stepN 2 s = exec (instrOf ty .writes)
        (accept (encode (instrOf ty .writes)) { s with operand := v, agenda := .awaitDone :: rest })) ∧
    (∀ l, s.agenda = asmTurns (.read ty l) ++ rest →
      stepN 2 s = exec (instrOf ty .read)
        (accept (encode (instrOf ty .read)) { s with ibuf := l, agenda := .awaitDone :: rest })) ∧
    (s.agenda = asmTurns (.reads ty) ++ rest →
      stepN 1 s = exec (instrOf ty .reads)
        (accept (encode (instrOf ty .reads)) { s with agenda := .awaitDone :: rest })) ∧
    (∀ w, s.agenda = asmTurns (.raw w) ++ rest →
      stepN 1 s = runCommand (accept w { s with agenda := .awaitDone :: rest }))

/-- The state after reset is sound. -/
def Obligations.SoundAtReset : Prop := State.reset.Inv

/-- Every step of any agent keeps a state sound: the registers stay in their widths, BUSY and DONE never hold together,
an error leaves no output, RESULT stays in the domain of its type, and a command in progress is a READS or a held WRITES
of the type CMD names (R14, R19 to R25, R30, R119). -/
def Obligations.EveryStepKeepsSound : Prop :=
  ∀ s t : State, s.Inv → step s = .next t → t.Inv
end

