-- ==== Sys2Proof/Laws/Operands.lean ====
section
/-! SUPPORT. The pure routines of Operands.lean in plain arithmetic: what a byte's payload and continuation flag are, when
the encoders reject and what they answer otherwise, and one step of the decode loop. -/

namespace Sys2Proof.Machine

theorem payload_toNat (b : Byte) : payload b = b.toNat % 128 := by
  have h := Nat.and_two_pow_sub_one_eq_mod b.toNat 7
  simpa [payload] using h

theorem moreFollow_iff (b : Byte) : moreFollow b = true ↔ 128 ≤ b.toNat := by
  have h := b.isLt
  simp only [moreFollow, BitVec.getLsbD, Nat.testBit_eq_decide_div_mod_eq, decide_eq_true_eq]
  omega

/-- Placing a payload above an accumulator that fits below it is addition (R72, R75). -/
theorem or_payload_shift {acc n : Nat} (p : Nat) (h : acc < 2 ^ (7 * n)) :
    acc ||| (p <<< (7 * n)) = acc + p * 2 ^ (7 * n) := by
  rw [Nat.lor_comm, Nat.shiftLeft_eq, mul_comm, ← Nat.two_pow_add_eq_or_of_lt h, mul_comm, add_comm]

/-- VarEncode rejects exactly the operands outside the signed domain of width W (R71). -/
theorem varEncode_error {W : Nat} {v : Int} (h : v < -(2 ^ (W - 1)) ∨ 2 ^ (W - 1) - 1 < v) :
    varEncode W v = .error .rangeError := by
  simp only [varEncode]
  rw [if_pos (by omega)]

theorem varEncode_ok {W : Nat} {v : Int} (lo : -(2 ^ (W - 1)) ≤ v) (hi : v ≤ 2 ^ (W - 1) - 1) :
    varEncode W v = .ok (varChunks ((W + 6) / 7) (if v < 0 then (v + 2 ^ W).toNat else v.toNat)) := by
  simp only [varEncode]
  rw [if_neg (by omega)]

/-- FixEncode rejects exactly the operands outside the domain of N bytes and the given signedness (R91). -/
theorem fixEncode_signed_error {N : Nat} {v : Int} (h : v < -(2 ^ (8 * N - 1)) ∨ 2 ^ (8 * N - 1) - 1 < v) :
    fixEncode N true v = .error .rangeError := by
  simp [fixEncode]; omega

theorem fixEncode_unsigned_error {N : Nat} {v : Int} (h : v < 0 ∨ 2 ^ (8 * N) - 1 < v) :
    fixEncode N false v = .error .rangeError := by
  simp [fixEncode]; omega

theorem fixEncode_signed_ok {N : Nat} {v : Int} (lo : -(2 ^ (8 * N - 1)) ≤ v) (hi : v ≤ 2 ^ (8 * N - 1) - 1) :
    fixEncode N true v =
      .ok ((List.range N).map fun i => BitVec.ofNat 8 ((v % 2 ^ (8 * N)).toNat >>> (8 * (N - 1 - i)))) := by
  simp [fixEncode]; omega

theorem fixEncode_unsigned_ok {N : Nat} {v : Int} (lo : 0 ≤ v) (hi : v ≤ 2 ^ (8 * N) - 1) :
    fixEncode N false v =
      .ok ((List.range N).map fun i => BitVec.ofNat 8 ((v % 2 ^ (8 * N)).toNat >>> (8 * (N - 1 - i)))) := by
  simp [fixEncode]; omega

/-- The decode loop on an exhausted input, on a byte that ends the value, and on one that does not (R72). -/
theorem varDecodeLoop_nil (cap acc n : Nat) : varDecodeLoop cap acc n [] = (acc, n) := by
  cases cap <;> rfl

theorem varDecodeLoop_last {b : Byte} (h : b.toNat < 128) (cap acc n : Nat) (rest : List Byte) :
    varDecodeLoop (cap + 1) acc n (b :: rest) = (acc ||| (payload b <<< (7 * n)), n + 1) := by
  rw [varDecodeLoop, if_neg (by rw [moreFollow_iff]; omega)]

theorem varDecodeLoop_more {b : Byte} (h : 128 ≤ b.toNat) (cap acc n : Nat) (rest : List Byte) :
    varDecodeLoop (cap + 1) acc n (b :: rest) =
      varDecodeLoop cap (acc ||| (payload b <<< (7 * n))) (n + 1) rest := by
  rw [varDecodeLoop, if_pos ((moreFollow_iff b).2 h)]

end Sys2Proof.Machine
end

