-- ==== Sys2Proof/Laws/State.lean ====
section
/-! SUPPORT. One lemma per field per update of State, each true by unfolding once, so that no later proof unfolds a
record update. -/

namespace Sys2Proof.Machine

/-! ## Acceptance (10_state.md R28). -/

@[simp] theorem accept_cmd (w : Byte) (s : State) : (accept w s).cmd = w := rfl
@[simp] theorem accept_operand (w : Byte) (s : State) : (accept w s).operand = s.operand := rfl
@[simp] theorem accept_ibuf (w : Byte) (s : State) : (accept w s).ibuf = s.ibuf := rfl
@[simp] theorem accept_busy (w : Byte) (s : State) : (accept w s).busy = true := rfl
@[simp] theorem accept_done (w : Byte) (s : State) : (accept w s).done = false := rfl
@[simp] theorem accept_status (w : Byte) (s : State) : (accept w s).status = .ok := rfl
@[simp] theorem accept_result (w : Byte) (s : State) : (accept w s).result = none := rfl
@[simp] theorem accept_consumed (w : Byte) (s : State) : (accept w s).consumed = 0 := rfl
@[simp] theorem accept_obuf (w : Byte) (s : State) : (accept w s).obuf = [] := rfl
@[simp] theorem accept_acc (w : Byte) (s : State) : (accept w s).acc = 0 := rfl
@[simp] theorem accept_n (w : Byte) (s : State) : (accept w s).n = 0 := rfl
@[simp] theorem accept_phase (w : Byte) (s : State) : (accept w s).phase = .idle := rfl
@[simp] theorem accept_sin (w : Byte) (s : State) : (accept w s).sin = s.sin := rfl
@[simp] theorem accept_sinEos (w : Byte) (s : State) : (accept w s).sinEos = s.sinEos := rfl
@[simp] theorem accept_sout (w : Byte) (s : State) : (accept w s).sout = s.sout := rfl
@[simp] theorem accept_sinkReady (w : Byte) (s : State) : (accept w s).sinkReady = s.sinkReady := rfl
@[simp] theorem accept_sinkOffer (w : Byte) (s : State) : (accept w s).sinkOffer = none := rfl
@[simp] theorem accept_hostData (w : Byte) (s : State) : (accept w s).hostData = s.hostData := rfl
@[simp] theorem accept_freeCount (w : Byte) (s : State) : (accept w s).freeCount = s.freeCount := rfl
@[simp] theorem accept_agenda (w : Byte) (s : State) : (accept w s).agenda = s.agenda := rfl

/-! ## The end of a command (R30). -/

@[simp] theorem finish_cmd (st : Status) (s : State) : (finish st s).cmd = s.cmd := rfl
@[simp] theorem finish_operand (st : Status) (s : State) : (finish st s).operand = s.operand := rfl
@[simp] theorem finish_ibuf (st : Status) (s : State) : (finish st s).ibuf = s.ibuf := rfl
@[simp] theorem finish_busy (st : Status) (s : State) : (finish st s).busy = false := rfl
@[simp] theorem finish_done (st : Status) (s : State) : (finish st s).done = true := rfl
@[simp] theorem finish_status (st : Status) (s : State) : (finish st s).status = st := rfl
@[simp] theorem finish_result (st : Status) (s : State) : (finish st s).result = s.result := rfl
@[simp] theorem finish_consumed (st : Status) (s : State) : (finish st s).consumed = s.consumed := rfl
@[simp] theorem finish_obuf (st : Status) (s : State) : (finish st s).obuf = s.obuf := rfl
@[simp] theorem finish_acc (st : Status) (s : State) : (finish st s).acc = s.acc := rfl
@[simp] theorem finish_n (st : Status) (s : State) : (finish st s).n = s.n := rfl
@[simp] theorem finish_phase (st : Status) (s : State) : (finish st s).phase = .idle := rfl
@[simp] theorem finish_sin (st : Status) (s : State) : (finish st s).sin = s.sin := rfl
@[simp] theorem finish_sinEos (st : Status) (s : State) : (finish st s).sinEos = s.sinEos := rfl
@[simp] theorem finish_sout (st : Status) (s : State) : (finish st s).sout = s.sout := rfl
@[simp] theorem finish_sinkReady (st : Status) (s : State) : (finish st s).sinkReady = s.sinkReady := rfl
@[simp] theorem finish_sinkOffer (st : Status) (s : State) : (finish st s).sinkOffer = s.sinkOffer := rfl
@[simp] theorem finish_hostData (st : Status) (s : State) : (finish st s).hostData = s.hostData := rfl
@[simp] theorem finish_freeCount (st : Status) (s : State) : (finish st s).freeCount = s.freeCount := rfl
@[simp] theorem finish_agenda (st : Status) (s : State) : (finish st s).agenda = s.agenda := rfl

/-! ## The write of OBUF (R23). -/

@[simp] theorem memWrite_cmd (l : List Byte) (s : State) : (memWrite l s).cmd = s.cmd := rfl
@[simp] theorem memWrite_operand (l : List Byte) (s : State) : (memWrite l s).operand = s.operand := rfl
@[simp] theorem memWrite_ibuf (l : List Byte) (s : State) : (memWrite l s).ibuf = s.ibuf := rfl
@[simp] theorem memWrite_busy (l : List Byte) (s : State) : (memWrite l s).busy = s.busy := rfl
@[simp] theorem memWrite_done (l : List Byte) (s : State) : (memWrite l s).done = s.done := rfl
@[simp] theorem memWrite_status (l : List Byte) (s : State) : (memWrite l s).status = s.status := rfl
@[simp] theorem memWrite_result (l : List Byte) (s : State) : (memWrite l s).result = s.result := rfl
@[simp] theorem memWrite_consumed (l : List Byte) (s : State) : (memWrite l s).consumed = s.consumed := rfl
@[simp] theorem memWrite_obuf (l : List Byte) (s : State) : (memWrite l s).obuf = l := rfl
@[simp] theorem memWrite_acc (l : List Byte) (s : State) : (memWrite l s).acc = s.acc := rfl
@[simp] theorem memWrite_n (l : List Byte) (s : State) : (memWrite l s).n = s.n := rfl
@[simp] theorem memWrite_phase (l : List Byte) (s : State) : (memWrite l s).phase = s.phase := rfl
@[simp] theorem memWrite_sin (l : List Byte) (s : State) : (memWrite l s).sin = s.sin := rfl
@[simp] theorem memWrite_sinEos (l : List Byte) (s : State) : (memWrite l s).sinEos = s.sinEos := rfl
@[simp] theorem memWrite_sout (l : List Byte) (s : State) : (memWrite l s).sout = s.sout := rfl
@[simp] theorem memWrite_sinkReady (l : List Byte) (s : State) : (memWrite l s).sinkReady = s.sinkReady := rfl
@[simp] theorem memWrite_sinkOffer (l : List Byte) (s : State) : (memWrite l s).sinkOffer = s.sinkOffer := rfl
@[simp] theorem memWrite_hostData (l : List Byte) (s : State) : (memWrite l s).hostData = s.hostData := rfl
@[simp] theorem memWrite_freeCount (l : List Byte) (s : State) : (memWrite l s).freeCount = s.freeCount := rfl
@[simp] theorem memWrite_agenda (l : List Byte) (s : State) : (memWrite l s).agenda = s.agenda := rfl

/-! ## A decoded value and its count (R21, R22). -/

@[simp] theorem setResult_cmd (v : Int) (k : Nat) (s : State) : (setResult v k s).cmd = s.cmd := rfl
@[simp] theorem setResult_operand (v : Int) (k : Nat) (s : State) : (setResult v k s).operand = s.operand := rfl
@[simp] theorem setResult_ibuf (v : Int) (k : Nat) (s : State) : (setResult v k s).ibuf = s.ibuf := rfl
@[simp] theorem setResult_busy (v : Int) (k : Nat) (s : State) : (setResult v k s).busy = s.busy := rfl
@[simp] theorem setResult_done (v : Int) (k : Nat) (s : State) : (setResult v k s).done = s.done := rfl
@[simp] theorem setResult_status (v : Int) (k : Nat) (s : State) : (setResult v k s).status = s.status := rfl
@[simp] theorem setResult_result (v : Int) (k : Nat) (s : State) : (setResult v k s).result = some v := rfl
@[simp] theorem setResult_consumed (v : Int) (k : Nat) (s : State) : (setResult v k s).consumed = k := rfl
@[simp] theorem setResult_obuf (v : Int) (k : Nat) (s : State) : (setResult v k s).obuf = s.obuf := rfl
@[simp] theorem setResult_acc (v : Int) (k : Nat) (s : State) : (setResult v k s).acc = s.acc := rfl
@[simp] theorem setResult_n (v : Int) (k : Nat) (s : State) : (setResult v k s).n = s.n := rfl
@[simp] theorem setResult_phase (v : Int) (k : Nat) (s : State) : (setResult v k s).phase = s.phase := rfl
@[simp] theorem setResult_sin (v : Int) (k : Nat) (s : State) : (setResult v k s).sin = s.sin := rfl
@[simp] theorem setResult_sinEos (v : Int) (k : Nat) (s : State) : (setResult v k s).sinEos = s.sinEos := rfl
@[simp] theorem setResult_sout (v : Int) (k : Nat) (s : State) : (setResult v k s).sout = s.sout := rfl
@[simp] theorem setResult_sinkReady (v : Int) (k : Nat) (s : State) : (setResult v k s).sinkReady = s.sinkReady := rfl
@[simp] theorem setResult_sinkOffer (v : Int) (k : Nat) (s : State) : (setResult v k s).sinkOffer = s.sinkOffer := rfl
@[simp] theorem setResult_hostData (v : Int) (k : Nat) (s : State) : (setResult v k s).hostData = s.hostData := rfl
@[simp] theorem setResult_freeCount (v : Int) (k : Nat) (s : State) : (setResult v k s).freeCount = s.freeCount := rfl
@[simp] theorem setResult_agenda (v : Int) (k : Nat) (s : State) : (setResult v k s).agenda = s.agenda := rfl

/-! ## Reset of a running machine (R34, R132). -/

@[simp] theorem applyReset_cmd (s : State) : (applyReset s).cmd = 0x00 := rfl
@[simp] theorem applyReset_operand (s : State) : (applyReset s).operand = 0 := rfl
@[simp] theorem applyReset_ibuf (s : State) : (applyReset s).ibuf = [] := rfl
@[simp] theorem applyReset_busy (s : State) : (applyReset s).busy = false := rfl
@[simp] theorem applyReset_done (s : State) : (applyReset s).done = false := rfl
@[simp] theorem applyReset_status (s : State) : (applyReset s).status = .ok := rfl
@[simp] theorem applyReset_result (s : State) : (applyReset s).result = none := rfl
@[simp] theorem applyReset_consumed (s : State) : (applyReset s).consumed = 0 := rfl
@[simp] theorem applyReset_obuf (s : State) : (applyReset s).obuf = [] := rfl
@[simp] theorem applyReset_acc (s : State) : (applyReset s).acc = 0 := rfl
@[simp] theorem applyReset_n (s : State) : (applyReset s).n = 0 := rfl
@[simp] theorem applyReset_phase (s : State) : (applyReset s).phase = .idle := rfl
@[simp] theorem applyReset_sin (s : State) : (applyReset s).sin = s.sin := rfl
@[simp] theorem applyReset_sinEos (s : State) : (applyReset s).sinEos = s.sinEos := rfl
@[simp] theorem applyReset_sout (s : State) : (applyReset s).sout = s.sout := rfl
@[simp] theorem applyReset_sinkReady (s : State) : (applyReset s).sinkReady = s.sinkReady := rfl
@[simp] theorem applyReset_sinkOffer (s : State) : (applyReset s).sinkOffer = none := rfl
@[simp] theorem applyReset_hostData (s : State) : (applyReset s).hostData = s.hostData := rfl
@[simp] theorem applyReset_freeCount (s : State) : (applyReset s).freeCount = s.freeCount := rfl
@[simp] theorem applyReset_agenda (s : State) : (applyReset s).agenda = s.agenda := rfl

/-! ## The placed command word. -/

@[simp] theorem placeCommand_cmd (w : Byte) (s : State) : (placeCommand w s).cmd = s.cmd := rfl
@[simp] theorem placeCommand_operand (w : Byte) (s : State) : (placeCommand w s).operand = s.operand := rfl
@[simp] theorem placeCommand_ibuf (w : Byte) (s : State) : (placeCommand w s).ibuf = s.ibuf := rfl
@[simp] theorem placeCommand_busy (w : Byte) (s : State) : (placeCommand w s).busy = false := rfl
@[simp] theorem placeCommand_done (w : Byte) (s : State) : (placeCommand w s).done = s.done := rfl
@[simp] theorem placeCommand_status (w : Byte) (s : State) : (placeCommand w s).status = s.status := rfl
@[simp] theorem placeCommand_result (w : Byte) (s : State) : (placeCommand w s).result = s.result := rfl
@[simp] theorem placeCommand_consumed (w : Byte) (s : State) : (placeCommand w s).consumed = s.consumed := rfl
@[simp] theorem placeCommand_obuf (w : Byte) (s : State) : (placeCommand w s).obuf = s.obuf := rfl
@[simp] theorem placeCommand_acc (w : Byte) (s : State) : (placeCommand w s).acc = s.acc := rfl
@[simp] theorem placeCommand_n (w : Byte) (s : State) : (placeCommand w s).n = s.n := rfl
@[simp] theorem placeCommand_phase (w : Byte) (s : State) : (placeCommand w s).phase = .idle := rfl
@[simp] theorem placeCommand_sin (w : Byte) (s : State) : (placeCommand w s).sin = s.sin := rfl
@[simp] theorem placeCommand_sinEos (w : Byte) (s : State) : (placeCommand w s).sinEos = s.sinEos := rfl
@[simp] theorem placeCommand_sout (w : Byte) (s : State) : (placeCommand w s).sout = s.sout := rfl
@[simp] theorem placeCommand_sinkReady (w : Byte) (s : State) : (placeCommand w s).sinkReady = s.sinkReady := rfl
@[simp] theorem placeCommand_sinkOffer (w : Byte) (s : State) : (placeCommand w s).sinkOffer = none := rfl
@[simp] theorem placeCommand_hostData (w : Byte) (s : State) : (placeCommand w s).hostData = s.hostData := rfl
@[simp] theorem placeCommand_freeCount (w : Byte) (s : State) : (placeCommand w s).freeCount = s.freeCount := rfl
@[simp] theorem placeCommand_agenda (w : Byte) (s : State) : (placeCommand w s).agenda = .host (.writeCmd w) :: s.agenda := rfl

/-! ## Names for the two ends of a command -/

@[simp] theorem complete_eq_finish (s : State) : complete s = finish .ok s := rfl
@[simp] theorem raiseError_eq_finish (e : ErrorCode) (s : State) : raiseError e s = finish e.status s := rfl

end Sys2Proof.Machine
end

