-- ==== Sys2Proof/Laws/Ops.lean ====
section
/-! SUPPORT. For each shared operation everything it can do, said once: the later proofs cite these and do not unfold the
operations. And which operation each command is, by its type and entry point. -/

namespace Sys2Proof.Machine

/-! ## The stream primitives -/

/-- Everything `StreamRead()` can do (R36). -/
theorem streamRead_cases (s : State) :
    (∃ b rest, s.sin = b :: rest ∧ streamRead s = (.byte b, { s with sin := rest })) ∨
    (s.sin = [] ∧ s.sinEos = true ∧ streamRead s = (.eos, s)) ∨
    (s.sin = [] ∧ s.sinEos = false ∧ streamRead s = (.hold, s)) := by
  cases h : s.sin <;> cases he : s.sinEos <;> simp [streamRead, h, he]

/-- Everything `StreamWrite(l)` can do (R38, R39): send the whole list and complete, or offer it and hold. -/
theorem streamWrite_cases (l : List Byte) (s : State) :
    (s.sinkReady = true ∧ streamWrite l s = complete { s with sout := s.sout ++ l, sinkOffer := none }) ∨
    (s.sinkReady = false ∧ streamWrite l s = { s with sinkOffer := some l }) := by
  cases h : s.sinkReady <;> simp [streamWrite, h]

/-! ## The command shapes -/

theorem writeCommand_cases {enc : Int → Except ErrorCode (List Byte)} {s t : State} (h : writeCommand enc s = .next t) :
    (∃ l, enc s.operand = .ok l ∧ t = complete (memWrite l s)) ∨
    (∃ e, enc s.operand = .error e ∧ t = raiseError e s) := by
  unfold writeCommand at h
  split at h <;> rename_i x hx <;> cases h
  · exact .inr ⟨x, hx, rfl⟩
  · exact .inl ⟨x, hx, rfl⟩

theorem writesCommand_cases {enc : Int → Except ErrorCode (List Byte)} {s t : State}
    (h : writesCommand enc s = .next t) :
    (∃ l, (s.sinkOffer = some l ∨ s.sinkOffer = none ∧ enc s.operand = .ok l) ∧ t = streamWrite l s) ∨
    (∃ e, s.sinkOffer = none ∧ enc s.operand = .error e ∧ t = raiseError e s) := by
  unfold writesCommand at h
  split at h
  · rename_i l hl
    cases h
    exact .inl ⟨l, .inl hl, rfl⟩
  · rename_i hn
    split at h <;> rename_i x hx <;> cases h
    · exact .inr ⟨x, hn, hx, rfl⟩
    · exact .inl ⟨x, .inr ⟨hn, hx⟩, rfl⟩

theorem readsCommand_cases {ty : CodecType} {byteStep : State → State} {s t : State}
    (h : readsCommand ty byteStep s = .next t) :
    (s.phase = .idle ∧ t = { s with phase := .streamRead ty, acc := 0, n := 0 }) ∨
    ((∃ ty', s.phase = .streamRead ty') ∧ t = byteStep s) := by
  unfold readsCommand at h
  split at h <;> rename_i hp <;> cases h
  · exact .inl ⟨hp, rfl⟩
  · exact .inr ⟨⟨_, hp⟩, rfl⟩

theorem fixReadCommand_cases {N : Nat} {signed : Bool} {s t : State} (h : fixReadCommand N signed s = .next t) :
    (s.ibuf.length < N ∧ t = raiseError .shortInput s) ∨
    (N ≤ s.ibuf.length ∧ t = complete (setResult (fixDecode signed (s.ibuf.take N)) N s)) := by
  unfold fixReadCommand at h
  split at h <;> rename_i hn <;> cases h
  · exact .inl ⟨hn, rfl⟩
  · exact .inr ⟨Nat.le_of_not_lt hn, rfl⟩

theorem varReadCommand_next (W cap : Nat) (s : State) :
    varReadCommand W cap s = .next (complete (setResult (varDecode W cap s.ibuf).1 (varDecode W cap s.ibuf).2 s)) := rfl

/-! ## One step of a stream read -/

/-- Everything `VarStreamStep` can do (R75). -/
theorem varStreamStep_cases (W cap : Nat) (s : State) :
    (s.sin = [] ∧ s.sinEos = false ∧ varStreamStep W cap s = s) ∨
    (s.sin = [] ∧ s.sinEos = true ∧ varStreamStep W cap s = varStreamFinish W s) ∨
    (∃ b rest, s.sin = b :: rest ∧
      let t := { s with sin := rest, acc := s.acc ||| (payload b <<< (7 * s.n)), n := s.n + 1 }
      ((b.toNat < 128 ∨ s.n + 1 = cap) ∧ varStreamStep W cap s = varStreamFinish W t ∨
       (128 ≤ b.toNat ∧ s.n + 1 ≠ cap) ∧ varStreamStep W cap s = t)) := by
  rcases streamRead_cases s with ⟨b, rest, h, e⟩ | ⟨h, he, e⟩ | ⟨h, he, e⟩
  · refine .inr (.inr ⟨b, rest, h, ?_⟩)
    by_cases hc : b.toNat < 128 ∨ s.n + 1 = cap
    · refine .inl ⟨hc, ?_⟩
      simp only [varStreamStep, e]
      rw [if_pos]
      rcases hc with hc | hc
      · simp [Bool.eq_false_iff.2 (fun h => absurd ((moreFollow_iff b).1 h) (by omega))]
      · simp [hc]
    · refine .inr ⟨by omega, ?_⟩
      simp only [varStreamStep, e]
      rw [if_neg]
      simp [(moreFollow_iff b).2 (show 128 ≤ b.toNat by omega)]
      omega
  · exact .inr (.inl ⟨h, he, by simp [varStreamStep, e]⟩)
  · exact .inl ⟨h, he, by simp [varStreamStep, e]⟩

/-- Everything `FixStreamStep` can do (R93). -/
theorem fixStreamStep_cases (NB : Nat) (signed : Bool) (s : State) :
    (s.sin = [] ∧ s.sinEos = false ∧ fixStreamStep NB signed s = s) ∨
    (s.sin = [] ∧ s.sinEos = true ∧ fixStreamStep NB signed s = raiseError .shortInput { s with consumed := s.n }) ∨
    (∃ b rest, s.sin = b :: rest ∧
      let t := { s with sin := rest, acc := s.acc * 256 + b.toNat, n := s.n + 1 }
      (s.n + 1 = NB ∧ fixStreamStep NB signed s = complete (setResult (fixValue NB signed t.acc) NB t) ∨
       s.n + 1 ≠ NB ∧ fixStreamStep NB signed s = t)) := by
  rcases streamRead_cases s with ⟨b, rest, h, e⟩ | ⟨h, he, e⟩ | ⟨h, he, e⟩
  · refine .inr (.inr ⟨b, rest, h, ?_⟩)
    by_cases hc : s.n + 1 = NB
    · exact .inl ⟨hc, by simp [fixStreamStep, e, hc]⟩
    · exact .inr ⟨hc, by simp [fixStreamStep, e, hc]⟩
  · exact .inr (.inl ⟨h, he, by simp [fixStreamStep, e]⟩)
  · exact .inl ⟨h, he, by simp [fixStreamStep, e]⟩

/-! ## Which operation each command is -/

/-- Every command is the command of its type and entry point. -/
theorem instr_eta (i : Instr) : instrOf i.ty i.op = i := by cases i <;> rfl

theorem instrOf_ty (ty : CodecType) (o : Op) : (instrOf ty o).ty = ty := by cases ty <;> cases o <;> rfl

theorem instrOf_op (ty : CodecType) (o : Op) : (instrOf ty o).op = o := by cases ty <;> cases o <;> rfl

theorem exec_write (ty : CodecType) (s : State) :
    exec (instrOf ty .write) s =
      writeCommand (if ty.isVariable then varEncode ty.width else fixEncode ty.cap ty.signed) s := by
  cases ty <;> rfl

theorem exec_read (ty : CodecType) (s : State) :
    exec (instrOf ty .read) s =
      if ty.isVariable then varReadCommand ty.width ty.cap s else fixReadCommand ty.cap ty.signed s := by
  cases ty <;> rfl

theorem exec_reads (ty : CodecType) (s : State) :
    exec (instrOf ty .reads) s =
      readsCommand ty (if ty.isVariable then varStreamStep ty.width ty.cap else fixStreamStep ty.cap ty.signed) s := by
  cases ty <;> rfl

theorem exec_writes (ty : CodecType) (s : State) :
    exec (instrOf ty .writes) s =
      writesCommand (if ty.isVariable then varEncode ty.width else fixEncode ty.cap ty.signed) s := by
  cases ty <;> rfl

/-! ## The host's accesses -/

/-- Every register but RESULT and the two buffers always holds a value (R31 to R33). -/
theorem readReg_error {r : Reg} {s : State} {f : Fault} (h : readReg r s = .error f) :
    (r = .result ∧ s.result = none ∧ f = .resultHoldsNoValue) ∨
    (∃ i, r = .ibuf i ∧ s.ibuf.length ≤ i ∧ f = .ibufByteHoldsNoValue) ∨
    (∃ i, r = .obuf i ∧ s.obuf.length ≤ i ∧ f = .obufByteHoldsNoValue) := by
  cases r <;> simp only [readReg] at h <;> try cases h
  all_goals split at h <;> rename_i hn <;> cases h
  · exact .inr (.inl ⟨_, rfl, by simpa using hn, rfl⟩)
  · exact .inl ⟨rfl, hn, rfl⟩
  · exact .inr (.inr ⟨_, rfl, by simpa using hn, rfl⟩)

theorem setIbufLen_length (k : Nat) (s : State) : (setIbufLen k s).ibuf.length = k := by
  simp [setIbufLen]; omega

theorem setIbufLen_kept {k j : Nat} {s : State} (hk : j < k) (hl : j < s.ibuf.length) :
    (setIbufLen k s).ibuf[j]? = s.ibuf[j]? := by
  simp [setIbufLen, List.getElem?_append, hk, hl]

end Sys2Proof.Machine
end

