-- ==== Sys2Proof/Laws/PerInstr.lean ====
section
/-! SUPPORT. Statements made per command, one lemma a constructor: family RoundTrip, the command's word decodes to it. -/

namespace Sys2Proof.Laws.RoundTrip

/-- The word of a command decodes to that command (30_encoding.md R65). -/
def Statement (i : Instr) : Prop := decode (encode i) = .ok i

theorem varintWrite : Statement .varintWrite := rfl
theorem varintRead : Statement .varintRead := rfl
theorem varintReads : Statement .varintReads := rfl
theorem varintWrites : Statement .varintWrites := rfl
theorem varlongWrite : Statement .varlongWrite := rfl
theorem varlongRead : Statement .varlongRead := rfl
theorem varlongReads : Statement .varlongReads := rfl
theorem varlongWrites : Statement .varlongWrites := rfl
theorem intWrite : Statement .intWrite := rfl
theorem intRead : Statement .intRead := rfl
theorem intReads : Statement .intReads := rfl
theorem intWrites : Statement .intWrites := rfl
theorem uintWrite : Statement .uintWrite := rfl
theorem uintRead : Statement .uintRead := rfl
theorem uintReads : Statement .uintReads := rfl
theorem uintWrites : Statement .uintWrites := rfl
theorem longWrite : Statement .longWrite := rfl
theorem longRead : Statement .longRead := rfl
theorem longReads : Statement .longReads := rfl
theorem longWrites : Statement .longWrites := rfl
theorem ulongWrite : Statement .ulongWrite := rfl
theorem ulongRead : Statement .ulongRead := rfl
theorem ulongReads : Statement .ulongReads := rfl
theorem ulongWrites : Statement .ulongWrites := rfl

end Sys2Proof.Laws.RoundTrip
end

