-- ==== Sys2Proof/Tests/Slice0.lean ====
section
/-! SUPPORT. Tests: what WellFormed refuses; every command word of the table, written out bit by bit from the fields of
30_encoding.md R62 to R64; one step of each command on the vectors of 95_test_vectors.md; and, for each statement that has
hypotheses, a witness that meets them. -/

open Sys2Proof Sys2Proof.Machine

namespace Sys2Proof.Tests

/-- Some next state, and what it holds. -/
def nextHas (o : Outcome) (p : State → Bool) : Bool :=
  match o with
  | .next t => p t
  | _ => false

/-- The state in which the host has written `w` to CMD, with OPERAND `v` and IBUF `l`, and the block takes it next. -/
def issuing (w : Byte) (v : Int) (l : List Byte) : State :=
  ({ State.reset with operand := v, ibuf := l } : State).withFetchWord 8 w.toNat

/-- The state in which the READS command `w` of type `ty` has taken `n` bytes, `acc` being their sum, `sin` has arrived
and the stream has ended. -/
def streaming (w : Byte) (ty : CodecType) (acc n : Nat) (sin : List Byte) : State :=
  { State.reset with cmd := w, busy := true, phase := .streamRead ty, acc := acc, n := n, sin := sin, sinEos := true }

/-! ## WellFormed: one ill-formed term for each check -/

theorem test_wf_realization_narrow_operand : Realization.wf { operandWidth := 65, ibufCap := 16 } = false := by decide
theorem test_wf_realization_small_ibuf : Realization.wf { operandWidth := 128, ibufCap := 9 } = false := by decide
theorem test_wf_realization_least : Realization.wf { operandWidth := 66, ibufCap := 10 } = true := by decide
theorem test_wf_operand_above : HostAction.wf ⟨66, 10⟩ (.writeOperand (2 ^ 65)) = false := by decide
theorem test_wf_operand_below : HostAction.wf ⟨66, 10⟩ (.writeOperand (-(2 ^ 65) - 1)) = false := by decide
theorem test_wf_ibuf_too_long : HostAction.wf ⟨66, 10⟩ (.writeIbuf (List.replicate 11 0)) = false := by decide
theorem test_wf_ibuf_byte_outside : HostAction.wf ⟨66, 10⟩ (.writeIbufByte 10 0) = false := by decide
theorem test_wf_ibuf_len_too_large : HostAction.wf ⟨66, 10⟩ (.writeIbufLen 11) = false := by decide
theorem test_wf_read_ibuf_outside : HostAction.wf ⟨66, 10⟩ (.read (.ibuf 10)) = false := by decide
theorem test_wf_read_obuf_outside : HostAction.wf ⟨66, 10⟩ (.read (.obuf 10)) = false := by decide

/-! ## Decode: RSV, OP, TYPE, written out bit by bit (R62 to R66) -/

theorem test_decode_write :
    decode 0b000_00_000 = .ok .varintWrite ∧
    decode 0b000_00_001 = .ok .varlongWrite ∧
    decode 0b000_00_010 = .ok .intWrite ∧
    decode 0b000_00_011 = .ok .uintWrite ∧
    decode 0b000_00_100 = .ok .longWrite ∧
    decode 0b000_00_101 = .ok .ulongWrite := by decide

theorem test_decode_read :
    decode 0b000_01_000 = .ok .varintRead ∧
    decode 0b000_01_001 = .ok .varlongRead ∧
    decode 0b000_01_010 = .ok .intRead ∧
    decode 0b000_01_011 = .ok .uintRead ∧
    decode 0b000_01_100 = .ok .longRead ∧
    decode 0b000_01_101 = .ok .ulongRead := by decide

theorem test_decode_reads :
    decode 0b000_10_000 = .ok .varintReads ∧
    decode 0b000_10_001 = .ok .varlongReads ∧
    decode 0b000_10_010 = .ok .intReads ∧
    decode 0b000_10_011 = .ok .uintReads ∧
    decode 0b000_10_100 = .ok .longReads ∧
    decode 0b000_10_101 = .ok .ulongReads := by decide

theorem test_decode_writes :
    decode 0b000_11_000 = .ok .varintWrites ∧
    decode 0b000_11_001 = .ok .varlongWrites ∧
    decode 0b000_11_010 = .ok .intWrites ∧
    decode 0b000_11_011 = .ok .uintWrites ∧
    decode 0b000_11_100 = .ok .longWrites ∧
    decode 0b000_11_101 = .ok .ulongWrites := by decide

theorem test_decode_reserved_type :
    decode 0b000_00_110 = .error .reservedType ∧ decode 0b000_11_111 = .error .reservedType ∧
    decode 0b000_01_110 = .error .reservedType ∧ decode 0b000_10_111 = .error .reservedType := by decide

theorem test_decode_reserved_rsv :
    decode 0b001_00_000 = .error .reservedRsv ∧ decode 0b010_00_000 = .error .reservedRsv ∧
    decode 0b100_00_000 = .error .reservedRsv ∧ decode 0b111_11_111 = .error .reservedRsv := by decide

theorem test_decode_table_word :
    decodeTableWord 8 0x10 = some .varintReads ∧ decodeTableWord 8 0x20 = none ∧ decodeTableWord 16 0x10 = none ∧
    decodeTableWord 8 0x110 = none := by decide

/-! ## One step of each command, on the vectors of 95_test_vectors.md -/

/-- V-E6. -/
theorem test_varint_write_300 : 
    nextHas (step (issuing 0x00 300 [])) (fun t => t.status = .ok ∧ t.done = true ∧ t.obuf = [0xAC, 0x02]) := by decide

/-- V-E18. -/
theorem test_varint_write_range : 
    nextHas (step (issuing 0x00 2147483648 [])) (fun t => t.status = .rangeError ∧ t.stat = 0x12 ∧ t.obufLen = 0 ∧ t.sout = []) := by decide

/-- V-E17. -/
theorem test_varint_writes_minimum : 
    nextHas (step (issuing 0x18 (-2147483648) [])) (fun t => t.status = .ok ∧ t.done = true ∧ t.sout = [0x80, 0x80, 0x80, 0x80, 0x08]) := by decide

/-- V-E19: the WRITES form sends no byte. -/
theorem test_varint_writes_range : 
    nextHas (step (issuing 0x18 (-2147483649) [])) (fun t => t.status = .rangeError ∧ t.stat = 0x12 ∧ t.obufLen = 0 ∧ t.sout = []) := by decide

/-- L-E12. -/
theorem test_varlong_write_minimum : 
    nextHas (step (issuing 0x01 (-9223372036854775808) [])) (fun t => t.status = .ok ∧ t.done = true ∧ t.obuf = [0x80, 0x80, 0x80, 0x80, 0x80, 0x80, 0x80, 0x80, 0x80, 0x01]) := by decide

/-- L-E13. -/
theorem test_varlong_write_range : 
    nextHas (step (issuing 0x01 9223372036854775808 [])) (fun t => t.status = .rangeError ∧ t.stat = 0x12 ∧ t.obufLen = 0 ∧ t.sout = []) := by decide

/-- L-E11. -/
theorem test_varlong_writes_minus_one : 
    nextHas (step (issuing 0x19 (-1) [])) (fun t => t.status = .ok ∧ t.done = true ∧ t.sout = [0xFF, 0xFF, 0xFF, 0xFF, 0xFF, 0xFF, 0xFF, 0xFF, 0xFF, 0x01]) := by decide

/-- F-E5. -/
theorem test_int_write_minus_two : 
    nextHas (step (issuing 0x02 (-2) [])) (fun t => t.status = .ok ∧ t.done = true ∧ t.obuf = [0xFF, 0xFF, 0xFF, 0xFE]) := by decide

/-- F-E8. -/
theorem test_int_write_range : 
    nextHas (step (issuing 0x02 2147483648 [])) (fun t => t.status = .rangeError ∧ t.stat = 0x12 ∧ t.obufLen = 0 ∧ t.sout = []) := by decide

/-- F-E4. -/
theorem test_int_writes_256 : 
    nextHas (step (issuing 0x1A 256 [])) (fun t => t.status = .ok ∧ t.done = true ∧ t.sout = [0x00, 0x00, 0x01, 0x00]) := by decide

/-- F-E11. -/
theorem test_uint_write_deadbeef : 
    nextHas (step (issuing 0x03 3735928559 [])) (fun t => t.status = .ok ∧ t.done = true ∧ t.obuf = [0xDE, 0xAD, 0xBE, 0xEF]) := by decide

/-- F-E3. -/
theorem test_uint_write_negative : 
    nextHas (step (issuing 0x03 (-1) [])) (fun t => t.status = .rangeError ∧ t.stat = 0x12 ∧ t.obufLen = 0 ∧ t.sout = []) := by decide

/-- F-E9. -/
theorem test_uint_writes_maximum : 
    nextHas (step (issuing 0x1B 4294967295 [])) (fun t => t.status = .ok ∧ t.done = true ∧ t.sout = [0xFF, 0xFF, 0xFF, 0xFF]) := by decide

/-- F-E5. -/
theorem test_long_write_minus_two : 
    nextHas (step (issuing 0x04 (-2) [])) (fun t => t.status = .ok ∧ t.done = true ∧ t.obuf = [0xFF, 0xFF, 0xFF, 0xFF, 0xFF, 0xFF, 0xFF, 0xFE]) := by decide

/-- F-E14. -/
theorem test_long_write_range : 
    nextHas (step (issuing 0x04 9223372036854775808 [])) (fun t => t.status = .rangeError ∧ t.stat = 0x12 ∧ t.obufLen = 0 ∧ t.sout = []) := by decide

/-- F-E17. -/
theorem test_long_writes_counting : 
    nextHas (step (issuing 0x1C 72623859790382856 [])) (fun t => t.status = .ok ∧ t.done = true ∧ t.sout = [0x01, 0x02, 0x03, 0x04, 0x05, 0x06, 0x07, 0x08]) := by decide

/-- F-E15. -/
theorem test_ulong_write_maximum : 
    nextHas (step (issuing 0x05 18446744073709551615 [])) (fun t => t.status = .ok ∧ t.done = true ∧ t.obuf = [0xFF, 0xFF, 0xFF, 0xFF, 0xFF, 0xFF, 0xFF, 0xFF]) := by decide

/-- F-E16. -/
theorem test_ulong_write_range : 
    nextHas (step (issuing 0x05 18446744073709551616 [])) (fun t => t.status = .rangeError ∧ t.stat = 0x12 ∧ t.obufLen = 0 ∧ t.sout = []) := by decide

/-- F-E14. -/
theorem test_ulong_writes_2_63 : 
    nextHas (step (issuing 0x1D 9223372036854775808 [])) (fun t => t.status = .ok ∧ t.done = true ∧ t.sout = [0x80, 0x00, 0x00, 0x00, 0x00, 0x00, 0x00, 0x00]) := by decide

/-- V-D8: the cap is reached with bit 7 set. -/
theorem test_varint_read_cap : 
    nextHas (step (issuing 0x08 0 [0xFF, 0xFF, 0xFF, 0xFF, 0xFF, 0x01])) (fun t => t.stat = 0x06 ∧ t.result = some (-1) ∧ t.consumed = 5) := by decide

/-- V-D9: payload bit 32 is discarded. -/
theorem test_varint_read_discards : 
    nextHas (step (issuing 0x08 0 [0x80, 0x80, 0x80, 0x80, 0x10])) (fun t => t.stat = 0x06 ∧ t.result = some 0 ∧ t.consumed = 5) := by decide

/-- L-D10: short input. -/
theorem test_varlong_read_short : 
    nextHas (step (issuing 0x09 0 [0xFF, 0xFF, 0xFF, 0xFF, 0xFF, 0xFF, 0xFF, 0xFF, 0xFF])) (fun t => t.stat = 0x06 ∧ t.result = some 9223372036854775807 ∧ t.consumed = 9) := by decide

/-- L-D6. -/
theorem test_varlong_read_minimum : 
    nextHas (step (issuing 0x09 0 [0x80, 0x80, 0x80, 0x80, 0x80, 0x80, 0x80, 0x80, 0x80, 0x01, 0x33])) (fun t => t.stat = 0x06 ∧ t.result = some (-9223372036854775808) ∧ t.consumed = 10) := by decide

/-- F-D5. -/
theorem test_int_read_remainder : 
    nextHas (step (issuing 0x0A 0 [0xFF, 0xFF, 0xFF, 0xFE, 0x5A])) (fun t => t.stat = 0x06 ∧ t.result = some (-2) ∧ t.consumed = 4) := by decide

/-- F-D7. -/
theorem test_int_read_short : 
    nextHas (step (issuing 0x0A 0 [0x01, 0x02, 0x03])) (fun t => t.status = .shortInput ∧ t.stat = 0x22 ∧ t.result = none ∧ t.consumed = 0) := by decide

/-- F-D6. -/
theorem test_uint_read_deadbeef : 
    nextHas (step (issuing 0x0B 0 [0xDE, 0xAD, 0xBE, 0xEF])) (fun t => t.stat = 0x06 ∧ t.result = some 3735928559 ∧ t.consumed = 4) := by decide

/-- F-D8. -/
theorem test_uint_read_empty : 
    nextHas (step (issuing 0x0B 0 [])) (fun t => t.status = .shortInput ∧ t.stat = 0x22 ∧ t.result = none ∧ t.consumed = 0) := by decide

/-- F-D11. -/
theorem test_long_read_counting : 
    nextHas (step (issuing 0x0C 0 [0x01, 0x02, 0x03, 0x04, 0x05, 0x06, 0x07, 0x08, 0x09])) (fun t => t.stat = 0x06 ∧ t.result = some 72623859790382856 ∧ t.consumed = 8) := by decide

/-- F-D12. -/
theorem test_long_read_short : 
    nextHas (step (issuing 0x0C 0 [0xFF, 0xFF, 0xFF, 0xFF, 0xFF, 0xFF, 0xFF])) (fun t => t.status = .shortInput ∧ t.stat = 0x22 ∧ t.result = none ∧ t.consumed = 0) := by decide

/-- F-D9. -/
theorem test_ulong_read_maximum : 
    nextHas (step (issuing 0x0D 0 [0xFF, 0xFF, 0xFF, 0xFF, 0xFF, 0xFF, 0xFF, 0xFF])) (fun t => t.stat = 0x06 ∧ t.result = some 18446744073709551615 ∧ t.consumed = 8) := by decide

/-- F-D2. -/
theorem test_ulong_read_short : 
    nextHas (step (issuing 0x0D 0 [0x80, 0x00, 0x00, 0x00])) (fun t => t.status = .shortInput ∧ t.stat = 0x22 ∧ t.result = none ∧ t.consumed = 0) := by decide

/-- S-1, at its second byte: the first gave ACC = 0x2C. -/
theorem test_varint_reads_second_byte : 
    nextHas (step (streaming 0x10 .varint 44 1 [0x02, 0x2A])) (fun t => t.stat = 0x06 ∧ t.result = some 300 ∧ t.consumed = 2 ∧ t.sin = [0x2A]) := by decide

/-- S-6. -/
theorem test_varlong_reads_end_at_once : 
    nextHas (step (streaming 0x11 .varlong 0 0 [])) (fun t => t.stat = 0x06 ∧ t.result = some 0 ∧ t.consumed = 0) := by decide

/-- L-D2 from the stream: its first byte, payload 0x16, does not end the value (R75). -/
theorem test_varlong_reads_more : 
    nextHas (step (streaming 0x11 .varlong 0 0 [0x96, 0x01])) (fun t => t.busy = true ∧ t.n = 1 ∧ t.acc = 0x16 ∧ t.sin = [0x01]) := by decide

/-- S-4, at its end of stream: the 3 bytes are counted. -/
theorem test_int_reads_end_short : 
    nextHas (step (streaming 0x12 .int 66051 3 [])) (fun t => t.stat = 0x22 ∧ t.result = none ∧ t.consumed = 3) := by decide

/-- P2 step 3, at its last byte. -/
theorem test_int_reads_last : 
    nextHas (step (streaming 0x12 .int 16777215 3 [0xFE, 0x05])) (fun t => t.stat = 0x06 ∧ t.result = some (-2) ∧ t.consumed = 4 ∧ t.sin = [0x05]) := by decide

/-- S-8, at its last byte. -/
theorem test_uint_reads_last : 
    nextHas (step (streaming 0x13 .uint 16777215 3 [0xFF])) (fun t => t.stat = 0x06 ∧ t.result = some 4294967295 ∧ t.consumed = 4) := by decide

/-- S-5, at its last byte. -/
theorem test_long_reads_last : 
    nextHas (step (streaming 0x14 .long 0 7 [0x2A, 0x07])) (fun t => t.stat = 0x06 ∧ t.result = some 42 ∧ t.consumed = 8 ∧ t.sin = [0x07]) := by decide

/-- P3 step 6, at its end of stream. -/
theorem test_long_reads_end_short : 
    nextHas (step (streaming 0x14 .long 0 3 [])) (fun t => t.stat = 0x22 ∧ t.consumed = 3) := by decide

/-- F-D9's bytes from the stream, at the last one (R109). -/
theorem test_ulong_reads_last : 
    nextHas (step (streaming 0x15 .ulong 72057594037927935 7 [0xFF])) (fun t => t.stat = 0x06 ∧ t.result = some 18446744073709551615 ∧ t.consumed = 8) := by decide

/-- S-7: with no byte and no end of stream the command holds, its byte taken, N = 1. -/
theorem test_varint_reads_holds :
    nextHas (step { streaming 0x10 .varint 0 1 [] with sinEos := false })
      (fun t => t = { streaming 0x10 .varint 0 1 [] with sinEos := false }) := by decide

/-- R25, R75: the accepting step of a READS. -/
theorem test_ulong_reads_begins :
    nextHas (step (issuing 0x15 0 [])) (fun t => t.busy = true ∧ t.phase = .streamRead .ulong ∧ t.stat = 0x01) := by
  decide

/-- R39: an unwilling sink holds a WRITES, with nothing sent. -/
theorem test_int_writes_holds :
    nextHas (step { issuing 0x1A 1 [] with sinkReady := false })
      (fun t => t.busy = true ∧ t.sout = [] ∧ t.sinkOffer = some [0x00, 0x00, 0x00, 0x01]) := by decide

/-- X-1 and X-5: a reserved word. -/
theorem test_reserved_word :
    nextHas (step (issuing 0x06 0 [0x01])) (fun t => t.stat = 0x32 ∧ t.consumed = 0 ∧ t.obufLen = 0) ∧
    nextHas (step (issuing 0xFF 0 [])) (fun t => t.stat = 0x32) := by decide

/-- R34: STAT after reset. -/
theorem test_reset_stat : State.reset.stat = 0x00 := by decide

/-! ## Witnesses: concrete states and operands that meet the hypotheses of each statement -/

/-- The state after reset with the given turns to come. -/
def turnsAhead (l : List Turn) : State := { State.reset with agenda := l }

/-- The state after reset with the given operand. -/
def operandIs (v : Int) : State := { State.reset with operand := v }

/-- The state after reset with the given input. -/
def inputIs (l : List Byte) : State := { State.reset with ibuf := l }

theorem witness_DecodeAndEncodeAgree :
    decode 0x00 = .ok .varintWrite ∧ decode 0x1D = .ok .ulongWrites ∧
    decode 0x1F = .error .reservedType ∧ (6 ≤ (0x1F : Byte).toNat % 8) ∧
    decode 0x20 = .error .reservedRsv ∧ (32 ≤ (0x20 : Byte).toNat) := by decide

/-- Both clauses: accepted, and not taken. -/
theorem witness_StepRunsTheCommandWritten :
    (turnsAhead [.host (.writeCmd 0x1D)]).agenda = [.host (.writeCmd 0x1D)] ∧
    (turnsAhead [.host (.writeCmd 0x1D)]).busy = false ∧ decode 0x1D = .ok .ulongWrites ∧
    ({ turnsAhead [.host (.writeCmd 0x00)] with busy := true } : State).busy = true := by decide

/-- A command in progress under each of the three turns, and none. -/
theorem witness_CodecTurnRunsTheCommandInProgress :
    (streaming 0x10 .varint 0 0 []).busy = true ∧ decode (streaming 0x10 .varint 0 0 []).cmd = .ok .varintReads ∧
    (streaming 0x10 .varint 0 0 []).agenda = [] ∧
    ({ streaming 0x10 .varint 0 0 [] with agenda := [.codec] } : State).agenda = [.codec] ∧
    ({ streaming 0x10 .varint 0 0 [] with agenda := [.awaitDone] } : State).agenda = [.awaitDone] ∧
    State.reset.busy = false ∧ State.reset.agenda = [] ∧ (turnsAhead [.codec]).agenda = [.codec] ∧
    (turnsAhead [.awaitDone]).agenda = [.awaitDone] := by decide

/-- The least word that either half of the hypothesis names, and the greatest. -/
theorem witness_ReservedWordCompletesIllegal :
    (32 ≤ (0x20 : Byte).toNat) ∧ (6 ≤ (0x06 : Byte).toNat % 8) ∧ (32 ≤ (0xFF : Byte).toNat) ∧
    (turnsAhead [.host (.writeCmd 0x20)]).agenda = [.host (.writeCmd 0x20)] ∧
    (turnsAhead [.host (.writeCmd 0x20)]).busy = false := by decide

theorem witness_ResetAtAnyTime :
    ({ streaming 0x12 .int 1 3 [] with agenda := [.reset] } : State).agenda = [.reset] := by decide

/-- Both ends of every domain. -/
theorem witness_ResultPatternMeansTheValue :
    domainLow .varint ≤ -2147483648 ∧ (2147483647 : Int) ≤ domainHigh .varint ∧
    domainLow .varlong ≤ -9223372036854775808 ∧ (9223372036854775807 : Int) ≤ domainHigh .varlong ∧
    domainLow .uint ≤ 0 ∧ (4294967295 : Int) ≤ domainHigh .uint ∧ CodecType.uint.signed = false ∧
    (18446744073709551615 : Int) ≤ domainHigh .ulong ∧ CodecType.long.signed = true := by decide

/-- The last byte of a buffer and the first place past it; RESULT with a value and without. -/
theorem witness_HostReads :
    ({ inputIs [0xAC, 0x02] with agenda := [.host (.read (.ibuf 1))] } : State).ibuf[1]? = some 0x02 ∧
    ({ inputIs [0xAC, 0x02] with agenda := [.host (.read (.ibuf 2))] } : State).ibuf.length ≤ 2 ∧
    ({ State.reset with result := some (-1), agenda := [.host (.read .result)] } : State).result = some (-1) ∧
    (turnsAhead [.host (.read .result)]).result = none ∧
    ({ State.reset with obuf := [0x7F], agenda := [.host (.read (.obuf 0))] } : State).obuf[0]? = some 0x7F ∧
    ({ State.reset with obuf := [0x7F], agenda := [.host (.read (.obuf 1))] } : State).obuf.length ≤ 1 := by decide

/-- Each write: the last byte of the input; an IBUF_LEN below, at and above the present one. -/
theorem witness_HostWritesOfInputs :
    (turnsAhead [.host (.writeOperand (-1))]).agenda = [.host (.writeOperand (-1))] ∧
    (turnsAhead [.host (.writeIbuf [0x80])]).agenda = [.host (.writeIbuf [0x80])] ∧
    1 < ({ inputIs [0xAC, 0x02] with agenda := [.host (.writeIbufByte 1 0x07)] } : State).ibuf.length ∧
    (0 < 1 ∧ 0 < ({ inputIs [0xAC, 0x02] with agenda := [.host (.writeIbufLen 1)] } : State).ibuf.length ∧
      1 ≤ (inputIs [0xAC, 0x02]).ibuf.length) ∧
    (1 < 2 ∧ 2 ≤ ({ inputIs [0xAC, 0x02] with agenda := [.host (.writeIbufLen 2)] } : State).ibuf.length) ∧
    (1 < 3 ∧ 1 < ({ inputIs [0xAC, 0x02] with agenda := [.host (.writeIbufLen 3)] } : State).ibuf.length) ∧
    (turnsAhead [.host (.writeReadOnly .stat 255)]).agenda = [.host (.writeReadOnly .stat 255)] := by decide

theorem witness_RealizationPresentsEveryBoundary :
    Realization.wf ⟨66, 10⟩ = true ∧ Realization.wf .default = true ∧
    -(2 ^ 65) ≤ (-(2 ^ 65) : Int) ∧ (2 ^ 65 - 1 : Int) ≤ 2 ^ 65 - 1 := by decide

/-- Both ends of both domains; -1 fills the cap. -/
theorem witness_VariableWriteEmitsTheWireFormat :
    -(2 ^ (32 - 1)) ≤ (operandIs (-(2 ^ 31))).operand ∧ (operandIs (-(2 ^ 31))).operand ≤ 2 ^ (32 - 1) - 1 ∧
    (operandIs (2 ^ 31 - 1)).operand ≤ 2 ^ (32 - 1) - 1 ∧
    -(2 ^ (64 - 1)) ≤ (operandIs (-(2 ^ 63))).operand ∧ (operandIs (2 ^ 63 - 1)).operand ≤ 2 ^ (64 - 1) - 1 ∧
    nextHas (exec .varintWrite (operandIs (-1))) (fun t => t.obuf.length = 5 ∧ t.obuf[5 - 1]? = some 0x0F) := by decide

/-- A magnitude on each side of the first and the last boundary, and both ends of the negative values. -/
theorem witness_VariableEncodedLength :
    (operandIs (2 ^ 7 - 1)).operand % 2 ^ 32 < 2 ^ 7 ∧ ¬ (operandIs (2 ^ 7)).operand % 2 ^ 32 < 2 ^ 7 ∧
    (operandIs (2 ^ 63 - 1)).operand % 2 ^ 64 < 2 ^ 63 ∧ ¬ (operandIs (-1)).operand % 2 ^ 64 < 2 ^ 63 ∧
    (operandIs (-1)).operand < 0 ∧ -(2 ^ (32 - 1)) ≤ (operandIs (-(2 ^ 31))).operand ∧
    -(2 ^ (64 - 1)) ≤ (operandIs (-(2 ^ 63))).operand := by decide

theorem witness_FixedWriteIsBigEndian :
    domainLow (Instr.ty .intWrite) ≤ (operandIs (-2147483648)).operand ∧
    (operandIs (-2147483648)).operand ≤ domainHigh (Instr.ty .intWrite) ∧
    domainLow (Instr.ty .uintWrite) ≤ (operandIs 4294967295).operand ∧
    (operandIs 4294967295).operand ≤ domainHigh (Instr.ty .uintWrite) ∧
    (operandIs 9223372036854775807).operand ≤ domainHigh (Instr.ty .longWrite) ∧
    (operandIs 18446744073709551615).operand ≤ domainHigh (Instr.ty .ulongWrite) := by decide

/-- The first value beyond each end, for a WRITE and for a WRITES. -/
theorem witness_OutOfRangeOperandIsRejected :
    Instr.op .varintWrite = .write ∧ domainHigh (Instr.ty .varintWrite) < (operandIs 2147483648).operand ∧
    Instr.op .ulongWrites = .writes ∧ (operandIs (-1)).sinkOffer = none ∧
    (operandIs (-1)).operand < domainLow (Instr.ty .ulongWrites) := by decide

theorem witness_WritesSendsWhatWriteStores :
    (operandIs (-2147483648)).sinkReady = true ∧ (operandIs (-2147483648)).sinkOffer = none ∧
    domainLow .varint ≤ (operandIs (-2147483648)).operand ∧
    (operandIs (-2147483648)).operand ≤ domainHigh .varint := by decide

theorem witness_WritesHoldsUntilTheSinkAccepts :
    ({ operandIs 4294967295 with sinkReady := false } : State).sinkReady = false ∧
    ({ operandIs 4294967295 with sinkReady := false } : State).sinkOffer = none ∧
    domainLow .uint ≤ (operandIs 4294967295).operand ∧ (operandIs 4294967295).operand ≤ domainHigh .uint := by decide

/-- A WRITE that completes with OK, a WRITE that does not, and a command that is no WRITE. -/
theorem witness_ObufLenAfterEachCommand :
    (issuing 0x02 0 []).agenda = [.host (.writeCmd 0x02)] ∧ decode 0x02 = .ok .intWrite ∧
    nextHas (step (issuing 0x02 0 [])) (fun t => t.status = .ok) ∧
    nextHas (step (issuing 0x02 (2 ^ 31) [])) (fun t => t.status ≠ .ok) ∧
    decode 0x0A = .ok .intRead ∧ Instr.op .intRead ≠ .write := by decide

/-- An input the decode takes less than the cap of, and one it takes the cap of. -/
theorem witness_VariableReadDecodes :
    nextHas (exec .varintRead (inputIs [0x80, 0x80, 0x80, 0x01])) (fun t => t.consumed < 5) ∧
    nextHas (exec .varintRead (inputIs [0xFF, 0xFF, 0xFF, 0xFF, 0x0F])) (fun t => t.consumed = 5) := by decide

/-- Exactly N bytes, and one fewer. -/
theorem witness_FixedReadDecodes :
    4 ≤ (inputIs [0x80, 0x00, 0x00, 0x00]).ibuf.length ∧ (inputIs [0x01, 0x02, 0x03]).ibuf.length < 4 ∧
    8 ≤ (inputIs (List.replicate 8 0xFF)).ibuf.length ∧ (inputIs (List.replicate 7 0xFF)).ibuf.length < 8 := by decide

theorem witness_SignedAndUnsignedShareBytes :
    0 ≤ (operandIs (2 ^ 31 - 1)).operand ∧ (operandIs (2 ^ 31 - 1)).operand ≤ 2 ^ (32 - 1) - 1 ∧
    0 ≤ (operandIs 0).operand ∧ (operandIs (2 ^ 63 - 1)).operand ≤ 2 ^ (64 - 1) - 1 ∧
    (inputIs [0x80, 0x00, 0x00, 0x00]).ibuf.head? = some 0x80 ∧ 32 / 8 ≤ (inputIs [0x80, 0x00, 0x00, 0x00]).ibuf.length ∧
    (inputIs (0x7F :: List.replicate 7 0xFF)).ibuf.head? = some 0x7F ∧
    64 / 8 ≤ (inputIs (0x7F :: List.replicate 7 0xFF)).ibuf.length := by decide

/-- The least value, and the input its bytes and one more make. -/
theorem witness_VarIntRoundTrip :
    -(2 ^ 31) ≤ (operandIs (-(2 ^ 31))).operand ∧ (operandIs (-(2 ^ 31))).operand ≤ 2 ^ 31 - 1 ∧
    nextHas (exec .varintWrite (operandIs (-(2 ^ 31))))
      (fun t => (inputIs [0x80, 0x80, 0x80, 0x80, 0x08, 0x05]).ibuf = t.obuf ++ [0x05]) := by decide

theorem witness_VarLongRoundTrip :
    -(2 ^ 63) ≤ (operandIs (2 ^ 63 - 1)).operand ∧ (operandIs (2 ^ 63 - 1)).operand ≤ 2 ^ 63 - 1 ∧
    nextHas (exec .varlongWrite (operandIs (2 ^ 63 - 1)))
      (fun t => (inputIs [0xFF, 0xFF, 0xFF, 0xFF, 0xFF, 0xFF, 0xFF, 0xFF, 0x7F]).ibuf = t.obuf ++ []) := by decide

theorem witness_FixedRoundTrip :
    domainLow .uint ≤ (operandIs 4294967295).operand ∧ (operandIs 4294967295).operand ≤ domainHigh .uint ∧
    nextHas (exec .uintWrite (operandIs 4294967295))
      (fun t => (inputIs [0xFF, 0xFF, 0xFF, 0xFF, 0x5A]).ibuf = t.obuf ++ [0x5A]) ∧
    domainLow .long ≤ (operandIs (-9223372036854775808)).operand := by decide

/-- A byte, the end of the stream, and neither. -/
theorem witness_StreamReadPrimitive :
    ({ State.reset with sin := [0xAC, 0x02] } : State).sin = 0xAC :: [0x02] ∧
    ({ State.reset with sinEos := true } : State).sin = [] ∧ ({ State.reset with sinEos := true } : State).sinEos = true ∧
    State.reset.sin = [] ∧ State.reset.sinEos = false := by decide

theorem witness_ReadsBegins : (accept 0x10 State.reset).phase = .idle := by decide

/-- Hold, end of stream, a byte that ends the value by its flag, one that does at the cap, and one that does not. -/
theorem witness_VariableStreamStep :
    (streaming 0x10 .varint 0 4 []).phase = .streamRead (Instr.ty .varintReads) ∧
    ({ streaming 0x10 .varint 0 0 [] with sinEos := false } : State).sinEos = false ∧
    (streaming 0x10 .varint 0 0 []).sin = [] ∧ (streaming 0x10 .varint 0 0 []).sinEos = true ∧
    (streaming 0x10 .varint 0 0 [0x7F]).sin = 0x7F :: [] ∧ (0x7F : Byte).toNat < 128 ∧
    (streaming 0x10 .varint 0 4 [0x80]).n + 1 = 5 ∧ (128 ≤ (0x80 : Byte).toNat) ∧
    (streaming 0x10 .varint 0 3 [0x80]).n + 1 ≠ 5 := by decide

/-- Hold, end of stream, the last byte, an earlier one. -/
theorem witness_FixedStreamStep :
    (streaming 0x12 .int 0xFFFFFF 3 [0xFF]).phase = .streamRead (Instr.ty .intReads) ∧
    (streaming 0x12 .int 0xFFFFFF 3 [0xFF]).acc < 2 ^ (8 * 3) ∧
    (streaming 0x12 .int 0xFFFFFF 3 [0xFF]).n + 1 = 4 ∧ (streaming 0x12 .int 0xFFFF 2 [0xFF]).n + 1 ≠ 4 ∧
    (streaming 0x12 .int 0 0 []).sin = [] ∧ (streaming 0x12 .int 0 0 []).sinEos = true ∧
    ({ streaming 0x12 .int 0 0 [] with sinEos := false } : State).sinEos = false := by decide

/-- A READS just accepted on an empty open stream, with the given turns to come. -/
def justAccepted (w : Byte) (ty : CodecType) (l : List Turn) : State :=
  { streaming w ty 0 0 [] with sinEos := false, agenda := l }

theorem justAccepted_readsAccepted {w : Byte} {ty : CodecType} (h : decode w = .ok (instrOf ty .reads))
    (l : List Turn) : (justAccepted w ty l).readsAccepted ty := ⟨rfl, h, rfl, rfl, rfl, rfl⟩

/-- The three cases: ended, a terminating byte, and neither. -/
theorem witness_StreamReadAgreesWithBufferRead :
    CodecType.varint.isVariable = true ∧
    (justAccepted 0x10 .varint [.codec, .source (.append [0x80]), .codec, .source .endStream]).readsAccepted .varint ∧
    ([.codec, .source (.append [0x80]), .codec, .source .endStream] : List Turn).all isCodecOrSource = true ∧
    nextHas (stepN (4 + 6) (justAccepted 0x10 .varint [.codec, .source (.append [0x80]), .codec, .source .endStream]))
      (fun t => t.sinEos = true) ∧
    nextHas (stepN (1 + 6) (justAccepted 0x10 .varint [.source (.append [0xAC, 0x02, 0x2A])])) (fun t => t.done) ∧
    nextHas (stepN (1 + 6) (justAccepted 0x10 .varint [.source (.append [0x80])])) (fun t => t.busy) :=
  ⟨rfl, justAccepted_readsAccepted (by decide) _, by decide, by decide, by decide, by decide⟩

/-- The three cases: N bytes, an early end, and neither. -/
theorem witness_FixedStreamReadInAnyTiming :
    CodecType.int.isVariable = false ∧
    (justAccepted 0x12 .int [.source (.append [0x01, 0x02, 0x03]), .source .endStream]).readsAccepted .int ∧
    ([.source (.append [0x01, 0x02, 0x03]), .source .endStream] : List Turn).all isCodecOrSource = true ∧
    nextHas (stepN (2 + 5) (justAccepted 0x12 .int [.source (.append [0x01, 0x02, 0x03]), .source .endStream]))
      (fun t => t.sinEos = true ∧ ¬ 4 ≤ (delivered [.source (.append [0x01, 0x02, 0x03]), .source .endStream]).length) ∧
    nextHas (stepN (1 + 5) (justAccepted 0x12 .int [.source (.append [0x01, 0x02, 0x03, 0x04])])) (fun t => t.done) ∧
    nextHas (stepN (1 + 5) (justAccepted 0x12 .int [.source (.append [0x01, 0x02, 0x03])])) (fun t => t.busy) :=
  ⟨rfl, justAccepted_readsAccepted (by decide) _, by decide, by decide, by decide, by decide⟩

theorem witness_FixedStreamReadTakesItsWidth :
    CodecType.long.isVariable = false ∧
    ({ justAccepted 0x14 .long [] with sin := List.replicate 8 0x2A ++ [0x07] } : State).readsAccepted .long ∧
    (List.replicate 8 (0x2A : Byte)).length = CodecType.long.cap :=
  ⟨rfl, ⟨rfl, by decide, rfl, rfl, rfl, rfl⟩, rfl⟩

theorem witness_EveryCommandHasAnOutcome :
    (turnsAhead [.host (.writeCmd 0xFF)]).agenda = [.host (.writeCmd 0xFF)] ∧
    (turnsAhead [.host (.writeCmd 0xFF)]).busy = false := by decide

/-- Each fault and each refusal is met. -/
theorem witness_OnlyOutsideAgentsStop :
    step (turnsAhead [.host (.read .result)]) = .fault .resultHoldsNoValue ∧
    step (turnsAhead [.host (.read (.ibuf 0))]) = .fault .ibufByteHoldsNoValue ∧
    step (turnsAhead [.host (.read (.obuf 0))]) = .fault .obufByteHoldsNoValue ∧
    step { turnsAhead [.host (.writeCmd 0x00)] with busy := true } = .refused .cmdWriteWhileBusy ∧
    step { turnsAhead [.source .endStream] with sinEos := true } = .refused .sourceActsAfterEnd :=
  ⟨rfl, rfl, rfl, rfl, rfl⟩

/-- A step that completes, and one that leaves the command in progress; the frames and the errors rest on such steps. -/
theorem witness_CompletesOrStaysInProgress :
    nextHas (exec .intRead (inputIs [0xFF, 0xFF, 0xFF, 0xFE])) (fun t => t.done) ∧
    nextHas (exec .intReads (accept 0x12 State.reset)) (fun t => t.busy) ∧
    nextHas (exec .intWrites { accept 0x1A State.reset with sinkReady := false }) (fun t => t.busy) := by decide

theorem witness_WhichErrorAndWhen :
    (accept 0x00 (operandIs (2 ^ 31))).done = false ∧
    nextHas (exec .varintWrite (accept 0x00 (operandIs (2 ^ 31)))) (fun t => t.done ∧ t.status = .rangeError) ∧
    nextHas (exec .intReads (streaming 0x12 .int 0x010203 3 [])) (fun t => t.done ∧ t.status = .shortInput) ∧
    nextHas (exec .intRead (accept 0x0A (inputIs [0x01, 0x02, 0x03]))) (fun t => t.done ∧ t.status = .shortInput) := by
  decide

/-- A sound state a READS is in progress in, three bytes taken. -/
theorem streaming_sound : (streaming 0x12 .int 0x010203 3 []).Inv where
  busyXorDone := by decide
  clearedUntilDone _ := ⟨rfl, rfl, rfl, rfl⟩
  streamRead ty h := by
    have e : ty = .int := by injection h with h; exact h.symm
    subst e
    exact ⟨rfl, rfl, by decide, by decide, by decide⟩
  offer _ h := by cases h
  busyHolds _ := .inl (by decide)
  widths := by decide
  errorOutputs h := absurd rfl h
  resultTyped _ h := by cases h
  obufTyped h := absurd rfl h
  consumedTyped h := absurd rfl h

/-- Its step ends with SHORT_INPUT; and a command written to a block at reset ends with RANGE_ERROR. -/
theorem witness_OutputsAfterAnError :
    (streaming 0x12 .int 0x010203 3 []).Inv ∧
    nextHas (step (streaming 0x12 .int 0x010203 3 [])) (fun t => t.done ∧ t.status ≠ .ok) ∧
    nextHas (step (issuing 0x00 (2 ^ 31) [])) (fun t => t.done ∧ t.status ≠ .ok) :=
  ⟨streaming_sound, by decide, by decide⟩

theorem witness_NoCommandWritesItsInputs :
    nextHas (exec .varlongRead (inputIs [0x96, 0x01])) (fun t => t.ibuf = [0x96, 0x01]) := by decide

/-- Each shape has a step. -/
theorem witness_FrameOfEachCommandShape :
    nextHas (exec .varintWrite (operandIs 300)) (fun _ => true) ∧
    nextHas (exec .varintRead (inputIs [0x7F])) (fun _ => true) ∧
    nextHas (exec .varintReads (streaming 0x10 .varint 0 0 [0x7F])) (fun _ => true) ∧
    nextHas (exec .varintWrites (operandIs 300)) (fun _ => true) := by decide

/-- The codec takes the head, the source appends, the source has ended, the sink accepts. -/
theorem witness_StreamsAreFirstInFirstOut :
    nextHas (step (streaming 0x10 .varint 0 0 [0x7F, 0x05])) (fun t => t.sin = [0x05]) ∧
    nextHas (step (turnsAhead [.source (.append [0x7F])])) (fun t => t.sin = [0x7F]) ∧
    (streaming 0x10 .varint 0 0 [0x7F]).sinEos = true ∧
    nextHas (step (issuing 0x18 300 [])) (fun t => t.sout = [0xAC, 0x02]) := by decide

/-- A block that holds the answer of its last command while the host writes OPERAND. -/
theorem witness_ResponsesKeptUntilTheNextCommand :
    nextHas (step { turnsAhead [.host (.writeOperand 1)] with result := some 300, done := true, consumed := 2 })
      (fun t => t.result = some 300) ∧
    (turnsAhead [.host (.writeOperand 1)]).busy = false ∧
    (∀ w rest, (turnsAhead [.host (.writeOperand 1)]).agenda ≠ .host (.writeCmd w) :: rest) ∧
    (∀ rest, (turnsAhead [.host (.writeOperand 1)]).agenda ≠ .reset :: rest) :=
  ⟨by decide, rfl, fun _ _ h => by simp [turnsAhead] at h, fun _ h => by simp [turnsAhead] at h⟩

theorem witness_InputsAreLatchedAtAcceptance :
    Instr.op .intReads = .reads ∧ (streaming 0x12 .int 0 0 [0x01]).phase = .streamRead (Instr.ty .intReads) ∧
    nextHas (exec .intReads (streaming 0x12 .int 0 0 [0x01])) (fun t => t.n = 1) ∧
    Instr.op .intWrites = .writes ∧ ({ State.reset with sinkOffer := some [0x00] } : State).sinkOffer ≠ none ∧
    nextHas (exec .intWrites { State.reset with sinkOffer := some [0x00] }) (fun t => t.sout = [0x00]) := by decide

/-- Two blocks that agree on the first CAP bytes of IBUF and on nothing else, and two on a READS's progress. -/
theorem witness_IgnoredInputsHaveNoEffect :
    decode 0x0A = .ok .intRead ∧
    (issuing 0x0A 1 [0x01, 0x02, 0x03, 0x04]).ibuf.take 4 = (issuing 0x0A 7 [0x01, 0x02, 0x03, 0x04, 0x05]).ibuf.take 4 ∧
    (issuing 0x0A 1 [0x01, 0x02, 0x03, 0x04]).agenda = [.host (.writeCmd 0x0A)] ∧
    nextHas (step (issuing 0x0A 1 [0x01, 0x02, 0x03, 0x04])) (fun t => t.result = some 16909060) ∧
    nextHas (step (issuing 0x0A 7 [0x01, 0x02, 0x03, 0x04, 0x05])) (fun t => t.result = some 16909060) ∧
    Instr.op .intReads = .reads ∧
    (streaming 0x12 .int 1 1 [0x05]).phase = .streamRead (Instr.ty .intReads) ∧
    nextHas (exec .intReads (streaming 0x12 .int 1 1 [0x05])) (fun t => t.n = 2) ∧
    nextHas (exec .intReads { streaming 0x12 .int 1 1 [0x05] with operand := 9 }) (fun t => t.n = 2) := by decide

theorem witness_StreamAgentTurns :
    (turnsAhead [.source (.append [0x01])]).sinEos = false ∧
    (turnsAhead [.source (.append [0x01])]).agenda = [.source (.append [0x01])] ∧
    (turnsAhead [.source .endStream]).agenda = [.source .endStream] ∧
    (turnsAhead [.sink false]).agenda = [.sink false] := by decide

theorem witness_AssemblerLinesRunTheirCommand :
    (turnsAhead (asmTurns (.write .varint 300) ++ [])).agenda = asmTurns (.write .varint 300) ++ [] ∧
    (turnsAhead (asmTurns (.reads .int) ++ [.codec])).agenda = asmTurns (.reads .int) ++ [.codec] ∧
    (turnsAhead (asmTurns (.read .int [0x01]))).busy = false ∧
    (turnsAhead (asmTurns (.writes .uint 0))).busy = false ∧
    (turnsAhead (asmTurns (.raw 0x06) ++ [])).agenda = asmTurns (.raw 0x06) ++ [] := by decide

/-- A sound state with a command in progress, and its next state. -/
theorem witness_EveryStepKeepsSound :
    (streaming 0x12 .int 0x010203 3 []).Inv ∧ nextHas (step (streaming 0x12 .int 0x010203 3 [])) (fun t => t.done) :=
  ⟨streaming_sound, by decide⟩

end Sys2Proof.Tests
end

/-! ## Which operands a realization can present (00_scope.md R7, 10_state.md R16) -/

section
namespace Sys2Proof

theorem Realization.wf_iff (r : Realization) : r.wf = true ↔ 66 ≤ r.operandWidth ∧ 10 ≤ r.ibufCap := by
  simp [Realization.wf]

theorem Realization.fitsOperand_iff (r : Realization) (v : Int) :
    r.fitsOperand v = true ↔ -(2 ^ (r.operandWidth - 1)) ≤ v ∧ v ≤ 2 ^ (r.operandWidth - 1) - 1 := by
  simp [Realization.fitsOperand]

/-- A wider OPERAND register holds everything a narrower one does. -/
theorem Realization.fitsOperand_of_width_le {r : Realization} {k : Nat} {v : Int} (hk : k + 1 ≤ r.operandWidth)
    (lo : -(2 ^ k) ≤ v) (hi : v ≤ 2 ^ k - 1) : r.fitsOperand v = true := by
  have wider : (2 : Int) ^ k ≤ 2 ^ (r.operandWidth - 1) :=
    pow_le_pow_right₀ (by decide) (Nat.le_sub_one_of_lt hk)
  exact (r.fitsOperand_iff v).2 ⟨by omega, by omega⟩

/-- Each domain, widened by one at each end, lies within 66 bits of two's complement; ULONG's upper end is the one that
needs them. -/
theorem domain_boundaries_in_66_bits (ty : CodecType) :
    -(2 ^ 65) ≤ domainLow ty - 1 ∧ domainHigh ty + 1 ≤ 2 ^ 65 - 1 := by
  cases ty <;> decide

/-- Settles O12: the least width R7 allows holds the range, and so does every wider one. -/
theorem realizationPresentsEveryBoundary : Obligations.RealizationPresentsEveryBoundary := by
  intro r hr
  obtain ⟨width, -⟩ := r.wf_iff.1 hr
  exact ⟨fun v lo hi => Realization.fitsOperand_of_width_le width lo hi, domain_boundaries_in_66_bits⟩

end Sys2Proof
end

/-! ## Every command has an outcome (00_scope.md R11) -/

section
namespace Sys2Proof.Machine

/-! Each command shape answers a next state, whatever its encoder or its stream routine. -/

theorem writeCommand_hasNext (enc : Int → Except ErrorCode (List Byte)) (s : State) :
    ∃ t, writeCommand enc s = .next t := by
  unfold writeCommand
  split
  · exact ⟨_, rfl⟩
  · exact ⟨_, rfl⟩

theorem writesCommand_hasNext (enc : Int → Except ErrorCode (List Byte)) (s : State) :
    ∃ t, writesCommand enc s = .next t := by
  unfold writesCommand
  split
  · exact ⟨_, rfl⟩
  · split
    · exact ⟨_, rfl⟩
    · exact ⟨_, rfl⟩

theorem readsCommand_hasNext (ty : CodecType) (byteStep : State → State) (s : State) :
    ∃ t, readsCommand ty byteStep s = .next t := by
  unfold readsCommand
  split
  · exact ⟨_, rfl⟩
  · exact ⟨_, rfl⟩

theorem fixReadCommand_hasNext (N : Nat) (signed : Bool) (s : State) :
    ∃ t, fixReadCommand N signed s = .next t := by
  unfold fixReadCommand
  split
  · exact ⟨_, rfl⟩
  · exact ⟨_, rfl⟩

/-- Every command is one of the four shapes, so it answers a next state. -/
theorem exec_hasNext (i : Instr) (s : State) : ∃ t, exec i s = .next t := by
  rw [← instr_eta i]
  cases i.op with
  | write => rw [exec_write]; exact writeCommand_hasNext _ s
  | read =>
    rw [exec_read]
    split
    · exact ⟨_, varReadCommand_next _ _ s⟩
    · exact fixReadCommand_hasNext _ _ s
  | reads => rw [exec_reads]; exact readsCommand_hasNext _ _ s
  | writes => rw [exec_writes]; exact writesCommand_hasNext _ s

/-- A reserved word ends with ILLEGAL_COMMAND; any other runs its command (R118). -/
theorem runCommand_hasNext (s : State) : ∃ t, runCommand s = .next t := by
  unfold runCommand
  split
  · exact exec_hasNext _ s
  · exact ⟨_, rfl⟩

theorem codecTurn_hasNext (s : State) : ∃ t, codecTurn s = .next t := by
  unfold codecTurn
  split
  · exact runCommand_hasNext s
  · exact ⟨_, rfl⟩

/-- The step that takes a CMD write of a block that is not busy: acceptance, then the command (10_state.md R28). -/
theorem step_writeCmd {s : State} {w : Byte} {rest : List Turn} (ha : s.agenda = .host (.writeCmd w) :: rest)
    (hb : s.busy = false) : step s = runCommand (accept w { s with agenda := rest }) := by
  simp [step, ha, runTurn, hostTurn, hb]

/-- Settles O33: acceptance, the codec's turn and `exec` all come down to the four command shapes. -/
theorem everyCommandHasAnOutcome : Obligations.EveryCommandHasAnOutcome := by
  refine ⟨fun s w rest ha hb => ?_, codecTurn_hasNext, exec_hasNext⟩
  rw [step_writeCmd ha hb]
  exact runCommand_hasNext _

end Sys2Proof.Machine
end

/-! ## The steps of the machine by the turn they take (10_state.md R12, R26) -/

section
namespace Sys2Proof.Machine

theorem step_nil {s : State} (ha : s.agenda = []) : step s = codecTurn s := by simp [step, ha]

theorem step_cons {s : State} {turn : Turn} {rest : List Turn} (ha : s.agenda = turn :: rest) :
    step s = runTurn turn { s with agenda := rest } := by simp [step, ha]

theorem runCommand_of_decode {s : State} {i : Instr} (h : decode s.cmd = .ok i) : runCommand s = exec i s := by
  simp [runCommand, h]

theorem runCommand_of_reserved {s : State} {e : DecodeError} (h : decode s.cmd = .error e) :
    runCommand s = .next (finish .illegalCommand s) := by
  simp [runCommand, h, ErrorCode.status]

theorem codecTurn_busy {s : State} (hb : s.busy = true) : codecTurn s = runCommand s := by simp [codecTurn, hb]

theorem codecTurn_of_decode {s : State} {i : Instr} (hb : s.busy = true) (hi : decode s.cmd = .ok i) :
    codecTurn s = exec i s := by rw [codecTurn_busy hb, runCommand_of_decode hi]

theorem codecTurn_idle {s : State} (hb : s.busy = false) : codecTurn s = .next s := by simp [codecTurn, hb]

theorem runTurn_awaitDone_idle {s : State} (hb : s.busy = false) : runTurn .awaitDone s = .next s := by
  simp [runTurn, hb]

/-- A waiting host leaves its step to the codec and keeps its turn. -/
theorem step_awaitDone_busy {s : State} {rest : List Turn} (ha : s.agenda = .awaitDone :: rest) (hb : s.busy = true) :
    step s = codecTurn s := by
  rw [step_cons ha, runTurn, if_pos hb, ← ha]

/-- Settles O3: acceptance, then the command the word decodes to; a busy block refuses the word. -/
theorem stepRunsTheCommandWritten : Obligations.StepRunsTheCommandWritten := by
  intro s w rest ha
  refine ⟨fun hb i hi => ?_, fun hb => ?_⟩
  · rw [step_writeCmd ha hb]
    exact runCommand_of_decode (s := accept w { s with agenda := rest }) hi
  · simp [step_cons ha, runTurn, hostTurn, hb]

/-- Settles O4: the empty agenda, a codec turn and a waiting host all come down to the codec's turn. -/
theorem codecTurnRunsTheCommandInProgress : Obligations.CodecTurnRunsTheCommandInProgress := by
  intro s
  refine ⟨fun hb i hi => ⟨fun ha => ?_, fun rest ha => ?_, fun rest ha => ?_⟩,
    fun hb => ⟨fun ha => ?_, fun rest ha => ?_, fun rest ha => ?_⟩⟩
  · rw [step_nil ha, codecTurn_of_decode hb hi]
  · rw [step_cons ha]
    exact codecTurn_of_decode (s := { s with agenda := rest }) hb hi
  · rw [step_awaitDone_busy ha hb, codecTurn_of_decode hb hi]
  · rw [step_nil ha, codecTurn_idle hb]
  · rw [step_cons ha]
    exact codecTurn_idle (s := { s with agenda := rest }) hb
  · rw [step_cons ha]
    exact runTurn_awaitDone_idle hb

/-- Settles O27: with PHASE idle the READS shape takes its accepting branch. -/
theorem readsBegins : Obligations.ReadsBegins := by
  intro s ty hp
  simp [exec_reads, readsCommand, hp]

/-- Settles O44: the source moves only while it has not ended; the sink always. -/
theorem streamAgentTurns : Obligations.StreamAgentTurns := by
  refine fun s rest => ⟨fun l ha he => ?_, fun ha he => ?_, fun r ha => ?_⟩
  · simp [step_cons ha, runTurn, sourceTurn, he]
  · simp [step_cons ha, runTurn, sourceTurn, he]
  · rw [step_cons ha, runTurn]

end Sys2Proof.Machine
end

/-! ## The registers as the host sees them (10_state.md R14 to R24, R31 to R34) -/

section
namespace Sys2Proof.Machine

/-- Settles O6: each value stands in `State.reset`, and its two buffers are empty. -/
theorem resetValues : Obligations.ResetValues :=
  ⟨rfl, rfl, rfl, rfl, rfl, rfl, rfl, rfl, rfl, rfl, fun _ => rfl, fun _ => rfl⟩

/-- Settles O8: STAT is made of four fields of finite types, 32 bytes in all, and each is read bit by bit. -/
theorem statFields : Obligations.StatFields := by
  intro s
  unfold State.stat State.resultValid
  generalize s.result.isSome = valid
  cases s.status <;> cases valid <;> cases s.done <;> cases s.busy <;> decide

/-- A value of 64 bits of two's complement is the signed reading of its pattern. -/
theorem resultPattern_toInt {v : Int} (lo : -(2 ^ 63) ≤ v) (hi : v < 2 ^ 63) : (resultPattern v).toInt = v :=
  BitVec.toInt_ofInt_eq_self (by decide) lo hi

/-- A non-negative value below `2^64` is the unsigned reading of its pattern. -/
theorem resultPattern_toNat {v : Int} (lo : 0 ≤ v) (hi : v < 2 ^ 64) : ((resultPattern v).toNat : Int) = v := by
  simp only [resultPattern, BitVec.toNat_ofInt]
  omega

/-- Settles O9: the signed domains lie within 64 bits of two's complement, the unsigned ones below `2^64`, UInt's below
`2^32`. -/
theorem resultPatternMeansTheValue : Obligations.ResultPatternMeansTheValue := by
  intro ty v lo hi
  refine ⟨fun signed => resultPattern_toInt ?_ ?_, fun unsigned => resultPattern_toNat ?_ ?_, fun uint => ?_⟩
  · cases ty <;> simp [domainLow] at lo ⊢ <;> omega
  · cases ty <;> simp [domainHigh, CodecType.signed] at hi signed ⊢ <;> omega
  · cases ty <;> simp [domainLow, CodecType.signed] at lo unsigned ⊢ <;> omega
  · cases ty <;> simp [domainHigh] at hi ⊢ <;> omega
  · subst uint
    have pattern := resultPattern_toNat (v := v) lo (by simp [domainHigh] at hi; omega)
    simp [domainHigh] at hi
    omega

theorem step_read {s : State} {r : Reg} {rest : List Turn} {v : HostValue} (ha : s.agenda = .host (.read r) :: rest)
    (hv : readReg r s = .ok v) : step s = .next { s with agenda := rest, hostData := some v } := by
  have hv' : readReg r { s with agenda := rest } = .ok v := hv
  simp [step_cons ha, runTurn, hostTurn, hv']

theorem step_read_fault {s : State} {r : Reg} {rest : List Turn} {f : Fault} (ha : s.agenda = .host (.read r) :: rest)
    (hf : readReg r s = .error f) : step s = .fault f := by
  have hf' : readReg r { s with agenda := rest } = .error f := hf
  simp [step_cons ha, runTurn, hostTurn, hf']

/-- Settles O10: a register holds a value and the read returns it, or holds none and the read faults. -/
theorem hostReads : Obligations.HostReads := by
  intro s r rest ha got
  cases r with
  | ibuf i =>
    exact ⟨fun b hb => step_read ha (by simp [readReg, hb]), fun hi => step_read_fault ha (by simp [readReg, hi])⟩
  | obuf i =>
    exact ⟨fun b hb => step_read ha (by simp [readReg, hb]), fun hi => step_read_fault ha (by simp [readReg, hi])⟩
  | result =>
    exact ⟨fun v hv => step_read ha (by simp [readReg, hv]), fun hn => step_read_fault ha (by simp [readReg, hn])⟩
  | _ => exact step_read ha rfl

/-- Lowering IBUF_LEN draws no free byte. -/
theorem setIbufLen_freeCount {k : Nat} {s : State} (hk : k ≤ s.ibuf.length) :
    (setIbufLen k s).freeCount = s.freeCount := by
  simp [setIbufLen, Nat.sub_eq_zero_of_le hk]

/-- Settles O11: each host write of an input changes its register; a write to a read-only register is ignored. -/
theorem hostWritesOfInputs : Obligations.HostWritesOfInputs := by
  refine fun s rest => ⟨fun v ha => step_cons ha, fun l ha => step_cons ha, fun i b ha hi => ?_, fun k ha => ?_,
    fun r v ha => step_cons ha⟩
  · exact ⟨s.ibuf.set i b, step_cons ha, List.length_set, by simp [hi],
      fun j hj => List.getElem?_set_ne (Ne.symm hj)⟩
  · exact ⟨(setIbufLen k s).ibuf, (setIbufLen k s).freeCount, step_cons ha, setIbufLen_length k s,
      fun j hj hl => setIbufLen_kept hj hl, setIbufLen_freeCount⟩

end Sys2Proof.Machine
end

/-! ## Where the machine stops (10_state.md R28, R32, R33, R35) -/

section
namespace Sys2Proof.Machine

/-- The codec never stops the machine, so a host that waits for it does not either. -/
theorem runTurn_awaitDone_hasNext (s : State) : ∃ t, runTurn .awaitDone s = .next t := by
  simp only [runTurn]
  split
  · exact codecTurn_hasNext _
  · exact ⟨_, rfl⟩

/-- Every turn either has a next state, or is one of the three turns of an outside agent that stop the machine. -/
theorem runTurn_cases (turn : Turn) (s : State) :
    (∃ t, runTurn turn s = .next t) ∨
    (∃ r f, turn = .host (.read r) ∧ readReg r s = .error f ∧ runTurn turn s = .fault f) ∨
    (∃ w, turn = .host (.writeCmd w) ∧ s.busy = true ∧ runTurn turn s = .refused .cmdWriteWhileBusy) ∨
    (∃ a, turn = .source a ∧ s.sinEos = true ∧ runTurn turn s = .refused .sourceActsAfterEnd) := by
  cases turn with
  | codec => exact .inl (codecTurn_hasNext s)
  | awaitDone => exact .inl (runTurn_awaitDone_hasNext s)
  | sink ready => exact .inl ⟨_, rfl⟩
  | reset => exact .inl ⟨_, rfl⟩
  | source a =>
    cases he : s.sinEos with
    | true => exact .inr (.inr (.inr ⟨a, rfl, rfl, by simp [runTurn, sourceTurn, he]⟩))
    | false => cases a <;> exact .inl ⟨_, by simp [runTurn, sourceTurn, he]; rfl⟩
  | host a =>
    cases a with
    | writeCmd w =>
      cases hb : s.busy with
      | true => exact .inr (.inr (.inl ⟨w, rfl, rfl, by simp [runTurn, hostTurn, hb]⟩))
      | false =>
        obtain ⟨t, ht⟩ := runCommand_hasNext (accept w s)
        exact .inl ⟨t, by simp [runTurn, hostTurn, hb, ht]⟩
    | read r =>
      cases hr : readReg r s with
      | ok v => exact .inl ⟨_, by simp [runTurn, hostTurn, hr]; rfl⟩
      | error f => exact .inr (.inl ⟨r, f, rfl, hr, by simp [runTurn, hostTurn, hr]⟩)
    | _ => exact .inl ⟨_, rfl⟩

/-- Settles O34: a step without a next state took one of the stopping turns, and a failed read says which place held no
value. -/
theorem onlyOutsideAgentsStop : Obligations.OnlyOutsideAgentsStop := by
  intro s
  cases ha : s.agenda with
  | nil =>
    obtain ⟨t, ht⟩ := codecTurn_hasNext s
    simp [step_nil ha, ht]
  | cons turn rest =>
    rw [step_cons ha]
    rcases runTurn_cases turn { s with agenda := rest } with
      ⟨t, e⟩ | ⟨r, f, rfl, hf, e⟩ | ⟨w, rfl, hb, e⟩ | ⟨a, rfl, he, e⟩
    · simp [e]
    · refine ⟨fun _ _ => ⟨r, rest, rfl, ?_⟩, fun x hx => by simp [e] at hx⟩
      rcases readReg_error hf with ⟨hr, hn, -⟩ | ⟨i, hr, hi, -⟩ | ⟨i, hr, hi, -⟩
      · exact .inl ⟨hr, hn⟩
      · exact .inr (.inl ⟨i, hr, hi⟩)
      · exact .inr (.inr ⟨i, hr, hi⟩)
    · refine ⟨fun f hf => by simp [e] at hf, fun x hx => .inl ⟨?_, hb, w, rest, rfl⟩⟩
      simpa [e] using hx.symm
    · refine ⟨fun f hf => by simp [e] at hf, fun x hx => .inr ⟨?_, he, a, rest, rfl⟩⟩
      simpa [e] using hx.symm

end Sys2Proof.Machine
end

/-! ## What one step does to the block (10_state.md R12, R31) -/

section
namespace Sys2Proof.Machine

/-- The part of the state that is the block's own and no input of it: what is left when the host's inputs and the
agents' fields are blanked. -/
def State.block (s : State) : State :=
  { s with
    operand := 0, ibuf := [], sin := [], sinEos := false, sout := [], sinkReady := false, hostData := none,
    freeCount := 0, agenda := [] }

/-- The invariant speaks of the block alone. -/
theorem inv_block_iff (s : State) : s.block.Inv ↔ s.Inv :=
  ⟨fun h => { h with }, fun h => { h with }⟩

/-- Everything a turn that has a next state can do: run the command in progress, accept a command, reset, or leave the
block alone. -/
theorem runTurn_next_cases {turn : Turn} {s t : State} (h : runTurn turn s = .next t) :
    t.block = s.block ∨
    (s.busy = true ∧ ∃ agenda, runCommand { s with agenda := agenda } = .next t) ∨
    (s.busy = false ∧ ∃ w, turn = .host (.writeCmd w) ∧ runCommand (accept w s) = .next t) ∨
    (turn = .reset ∧ t = applyReset s) := by
  cases turn with
  | codec =>
    by_cases hb : s.busy = true
    · exact .inr (.inl ⟨hb, s.agenda, (codecTurn_busy hb).symm.trans h⟩)
    · cases (codecTurn_idle (Bool.eq_false_iff.2 hb)).symm.trans h
      exact .inl rfl
  | awaitDone =>
    by_cases hb : s.busy = true
    · rw [runTurn, if_pos hb] at h
      exact .inr (.inl ⟨hb, _, (codecTurn_busy (s := { s with agenda := .awaitDone :: s.agenda }) hb).symm.trans h⟩)
    · cases (runTurn_awaitDone_idle (Bool.eq_false_iff.2 hb)).symm.trans h
      exact .inl rfl
  | sink ready => cases h; exact .inl rfl
  | reset => cases h; exact .inr (.inr (.inr ⟨rfl, rfl⟩))
  | source a =>
    simp only [runTurn, sourceTurn] at h
    split at h
    · cases h
    · cases a <;> cases h <;> exact .inl rfl
  | host a =>
    cases a with
    | writeCmd w =>
      cases hb : s.busy with
      | true => simp [runTurn, hostTurn, hb] at h
      | false => exact .inr (.inr (.inl ⟨rfl, w, rfl, by simpa [runTurn, hostTurn, hb] using h⟩))
    | read r =>
      simp only [runTurn, hostTurn] at h
      split at h <;> cases h
      exact .inl rfl
    | _ => cases h; exact .inl rfl

/-- Everything a step that has a next state can do. -/
theorem step_next_cases {s t : State} (h : step s = .next t) :
    t.block = s.block ∨
    (s.busy = true ∧ ∃ agenda, runCommand { s with agenda := agenda } = .next t) ∨
    (s.busy = false ∧ ∃ w rest, s.agenda = .host (.writeCmd w) :: rest ∧
      runCommand (accept w { s with agenda := rest }) = .next t) ∨
    (∃ rest, s.agenda = .reset :: rest ∧ t = applyReset { s with agenda := rest }) := by
  cases ha : s.agenda with
  | nil =>
    rw [step_nil ha] at h
    rcases runTurn_next_cases (turn := .codec) h with same | run | ⟨-, w, hw, -⟩ | ⟨hr, -⟩
    · exact .inl same
    · exact .inr (.inl run)
    · cases hw
    · cases hr
  | cons turn rest =>
    rw [step_cons ha] at h
    rcases runTurn_next_cases h with same | ⟨hb, agenda, run⟩ | ⟨hb, w, rfl, run⟩ | ⟨rfl, rfl⟩
    · exact .inl same
    · exact .inr (.inl ⟨hb, agenda, run⟩)
    · exact .inr (.inr (.inl ⟨hb, w, rest, rfl, run⟩))
    · exact .inr (.inr (.inr ⟨rest, rfl, rfl⟩))

/-- Settles O41: the step of a block that is not busy leaves the block alone, unless it accepts or resets. -/
theorem responsesKeptUntilTheNextCommand : Obligations.ResponsesKeptUntilTheNextCommand := by
  intro s t h hb noCmd noReset
  rcases step_next_cases h with same | ⟨busy, -⟩ | ⟨-, w, rest, ha, -⟩ | ⟨rest, ha, -⟩
  · show t.block.outputs = s.block.outputs ∧ t.block.done = s.block.done ∧ t.block.busy = false
    rw [same]
    exact ⟨rfl, rfl, hb⟩
  · simp [hb] at busy
  · exact absurd ha (noCmd w rest)
  · exact absurd ha (noReset rest)

end Sys2Proof.Machine
end

/-! ## The routines of a type: lengths of encodings, bounds of decoded values (40_varint.md, 42_fixed_width.md) -/

section
namespace Sys2Proof.Machine

/-- The encoder of a type's WRITE and WRITES. -/
def encoderOf (ty : CodecType) : Int → Except ErrorCode (List Byte) :=
  if ty.isVariable then varEncode ty.width else fixEncode ty.cap ty.signed

/-- The stream routine of a type's READS. -/
def byteStepOf (ty : CodecType) : State → State :=
  if ty.isVariable then varStreamStep ty.width ty.cap else fixStreamStep ty.cap ty.signed

/-- What a type decodes an accumulated magnitude to (R73, R74, R92, R93). -/
def accValue (ty : CodecType) (acc : Nat) : Int :=
  if ty.isVariable then varValue ty.width acc else fixValue ty.cap ty.signed acc

theorem exec_write_encoderOf (ty : CodecType) (s : State) :
    exec (instrOf ty .write) s = writeCommand (encoderOf ty) s := exec_write ty s

theorem exec_writes_encoderOf (ty : CodecType) (s : State) :
    exec (instrOf ty .writes) s = writesCommand (encoderOf ty) s := exec_writes ty s

theorem exec_reads_byteStepOf (ty : CodecType) (s : State) :
    exec (instrOf ty .reads) s = readsCommand ty (byteStepOf ty) s := exec_reads ty s

/-! ### Lengths of encodings (R24, R58) -/

theorem varChunks_length_le (fuel u : Nat) : (varChunks fuel u).length ≤ fuel := by
  induction fuel generalizing u with
  | zero => simp [varChunks]
  | succ fuel ih =>
    simp only [varChunks]
    split
    · simpa using ih _
    · simp

theorem varChunks_length_pos (fuel u : Nat) : 1 ≤ (varChunks (fuel + 1) u).length := by
  simp only [varChunks]
  split <;> simp

theorem varEncode_length {W : Nat} {v : Int} {l : List Byte} (h : varEncode W v = .ok l) (hW : 0 < W) :
    1 ≤ l.length ∧ l.length ≤ (W + 6) / 7 := by
  simp only [varEncode] at h
  split at h <;> cases h
  obtain ⟨fuel, hf⟩ : ∃ fuel, (W + 6) / 7 = fuel + 1 := ⟨(W + 6) / 7 - 1, by omega⟩
  exact ⟨by rw [hf]; exact varChunks_length_pos _ _, varChunks_length_le _ _⟩

theorem fixEncode_length {N : Nat} {signed : Bool} {v : Int} {l : List Byte} (h : fixEncode N signed v = .ok l) :
    l.length = N := by
  simp only [fixEncode] at h
  split at h
  · cases h
  · split at h <;> cases h
    simp

theorem cap_bounds (ty : CodecType) : 1 ≤ ty.cap ∧ ty.cap ≤ 10 := by cases ty <;> decide

/-- An encoding has 1 to cap bytes, and a fixed-width one has exactly cap. -/
theorem encoderOf_length {ty : CodecType} {v : Int} {l : List Byte} (h : encoderOf ty v = .ok l) :
    1 ≤ l.length ∧ l.length ≤ ty.cap ∧ (ty.isVariable = false → l.length = ty.cap) := by
  unfold encoderOf at h
  split at h
  · next hv =>
    have len := varEncode_length h (by cases ty <;> decide)
    have cap : (ty.width + 6) / 7 = ty.cap := by revert hv; cases ty <;> decide
    exact ⟨len.1, cap ▸ len.2, fun hf => by simp [hf] at hv⟩
  · have len := fixEncode_length h
    exact ⟨len ▸ (cap_bounds ty).1, len.le, fun _ => len⟩

/-! ### Bounds of decoded values (R5, R74, R92) -/

/-- The sign bit of a magnitude of W bits is whether it reaches `2^(W-1)` (R9). -/
theorem sext_eq_twosComplement {k u : Nat} (hu : u < 2 ^ (k + 1)) : sext (k + 1) u = twosComplement (k + 1) u := by
  simp only [sext, twosComplement, Nat.add_sub_cancel]
  by_cases h : u < 2 ^ k
  · simp [h, Nat.testBit_lt_two_pow h]
  · simp [h, Nat.testBit_of_two_pow_le_and_two_pow_add_one_gt (Nat.le_of_not_lt h) hu]

theorem twosComplement_bounds {k u : Nat} (hu : u < 2 ^ (k + 1)) :
    -(2 ^ k) ≤ twosComplement (k + 1) u ∧ twosComplement (k + 1) u ≤ 2 ^ k - 1 := by
  have hu' : (u : Int) < 2 ^ k * 2 := by exact_mod_cast hu
  simp only [twosComplement, Nat.add_sub_cancel, pow_succ (2 : Int)]
  split
  · next h =>
    have h' : (u : Int) < 2 ^ k := by exact_mod_cast h
    omega
  · next h =>
    have h' : (2 : Int) ^ k ≤ u := by exact_mod_cast Nat.le_of_not_lt h
    omega

theorem sext_bounds {k u : Nat} (hu : u < 2 ^ (k + 1)) : -(2 ^ k) ≤ sext (k + 1) u ∧ sext (k + 1) u ≤ 2 ^ k - 1 := by
  rw [sext_eq_twosComplement hu]
  exact twosComplement_bounds hu

/-- A decoded value lies in the type's domain: a variable-length type discards the bits above its width, a fixed-width
one has read no more than its width. -/
theorem accValue_inDomain {ty : CodecType} {acc : Nat} (h : ty.isVariable = false → acc < 2 ^ (8 * ty.cap)) :
    domainLow ty ≤ accValue ty acc ∧ accValue ty acc ≤ domainHigh ty := by
  cases ty with
  | varint => exact sext_bounds (k := 31) (Nat.mod_lt _ (by decide))
  | varlong => exact sext_bounds (k := 63) (Nat.mod_lt _ (by decide))
  | int => exact sext_bounds (k := 31) (h rfl)
  | long => exact sext_bounds (k := 63) (h rfl)
  | uint =>
    have bound : acc < 2 ^ 32 := h rfl
    show (0 : Int) ≤ acc ∧ (acc : Int) ≤ 4294967295
    omega
  | ulong =>
    have bound : acc < 2 ^ 64 := h rfl
    show (0 : Int) ≤ acc ∧ (acc : Int) ≤ 18446744073709551615
    omega

theorem fixMagnitude_lt (l : List Byte) : fixMagnitude l < 2 ^ (8 * l.length) := by
  induction l with
  | nil => simp [fixMagnitude]
  | cons b rest ih =>
    have step : (b.toNat + 1) * 2 ^ (8 * rest.length) ≤ 2 ^ 8 * 2 ^ (8 * rest.length) :=
      Nat.mul_le_mul_right _ b.isLt
    calc b.toNat * 2 ^ (8 * rest.length) + fixMagnitude rest
        < (b.toNat + 1) * 2 ^ (8 * rest.length) := by rw [Nat.add_mul]; omega
      _ ≤ 2 ^ (8 * (b :: rest).length) := by rw [List.length_cons, Nat.mul_add, Nat.add_comm (8 * _), pow_add]; exact step

theorem varDecodeLoop_taken_le (cap acc n : Nat) (l : List Byte) : (varDecodeLoop cap acc n l).2 ≤ n + cap := by
  induction cap generalizing acc n l with
  | zero => simp [varDecodeLoop]
  | succ cap ih =>
    cases l with
    | nil => simp [varDecodeLoop]
    | cons b rest =>
      simp only [varDecodeLoop]
      split
      · exact (ih _ _ _).trans (by omega)
      · simp

/-! ## What one codec step of each entry point can do -/

theorem exec_write_cases {ty : CodecType} {s t : State} (h : exec (instrOf ty .write) s = .next t) :
    (∃ l, encoderOf ty s.operand = .ok l ∧ t = finish .ok (memWrite l s)) ∨ (∃ e : ErrorCode, t = finish e.status s) := by
  rw [exec_write_encoderOf] at h
  rcases writeCommand_cases h with ⟨l, hl, rfl⟩ | ⟨e, -, rfl⟩
  · exact .inl ⟨l, hl, rfl⟩
  · exact .inr ⟨e, rfl⟩

/-- A READ reports a value of the type's domain and at most cap bytes, or SHORT_INPUT. -/
theorem exec_read_cases {ty : CodecType} {s t : State} (h : exec (instrOf ty .read) s = .next t) :
    (∃ v k, (domainLow ty ≤ v ∧ v ≤ domainHigh ty) ∧ k ≤ ty.cap ∧ t = finish .ok (setResult v k s)) ∨
    t = finish .shortInput s := by
  rw [exec_read] at h
  cases hv : ty.isVariable with
  | true =>
    rw [hv, if_pos rfl, varReadCommand_next] at h
    cases h
    refine .inl ⟨accValue ty (varDecodeLoop ty.cap 0 0 s.ibuf).1, (varDecodeLoop ty.cap 0 0 s.ibuf).2,
      accValue_inDomain (fun hf => by simp [hv] at hf), ?_, by simp [accValue, hv, varDecode]⟩
    simpa using varDecodeLoop_taken_le ty.cap 0 0 s.ibuf
  | false =>
    rw [hv, if_neg (by decide)] at h
    rcases fixReadCommand_cases h with ⟨-, rfl⟩ | ⟨hlen, rfl⟩
    · exact .inr rfl
    · have taken : (s.ibuf.take ty.cap).length = ty.cap := by simpa using hlen
      have bound := fixMagnitude_lt (s.ibuf.take ty.cap)
      rw [taken] at bound
      exact .inl ⟨accValue ty (fixMagnitude (s.ibuf.take ty.cap)), ty.cap, accValue_inDomain fun _ => bound, le_rfl,
        by simp [accValue, hv, fixDecode, taken]⟩

theorem exec_writes_cases {ty : CodecType} {s t : State} (h : exec (instrOf ty .writes) s = .next t) :
    (∃ l, (s.sinkOffer = some l ∨ s.sinkOffer = none ∧ encoderOf ty s.operand = .ok l) ∧
      (t = finish .ok { s with sout := s.sout ++ l, sinkOffer := none } ∨
       s.sinkReady = false ∧ t = { s with sinkOffer := some l })) ∨
    (s.sinkOffer = none ∧ ∃ e : ErrorCode, t = finish e.status s) := by
  rw [exec_writes_encoderOf] at h
  rcases writesCommand_cases h with ⟨l, hl, rfl⟩ | ⟨e, hn, -, rfl⟩
  · refine .inl ⟨l, hl, ?_⟩
    rcases streamWrite_cases l s with ⟨-, e⟩ | ⟨hr, e⟩
    · exact .inl e
    · exact .inr ⟨hr, e⟩
  · exact .inr ⟨hn, e, rfl⟩

theorem exec_reads_cases {ty : CodecType} {s t : State} (h : exec (instrOf ty .reads) s = .next t) :
    (s.phase = .idle ∧ t = { s with phase := .streamRead ty, acc := 0, n := 0 }) ∨
    ((∃ ty', s.phase = .streamRead ty') ∧ t = byteStepOf ty s) := by
  rw [exec_reads_byteStepOf] at h
  exact readsCommand_cases h

/-- ACC with one more byte taken (R75, R93). -/
def accWithByte (ty : CodecType) (acc n : Nat) (b : Byte) : Nat :=
  if ty.isVariable then acc ||| (payload b <<< (7 * n)) else acc * 256 + b.toNat

/-- A stream read with one more byte taken. -/
def State.takeByte (ty : CodecType) (b : Byte) (rest : List Byte) (s : State) : State :=
  { s with sin := rest, acc := accWithByte ty s.acc s.n b, n := s.n + 1 }

/-- A step of a stream read holds; ends at the end of the stream, with the value so far or with SHORT_INPUT; or takes a
byte, and then ends, the cap being reached or, of a variable-length type, the value complete, or goes on. -/
theorem byteStepOf_cases (ty : CodecType) (s : State) :
    byteStepOf ty s = s ∨
    (ty.isVariable = true ∧ byteStepOf ty s = finish .ok (setResult (accValue ty s.acc) s.n s)) ∨
    byteStepOf ty s = finish .shortInput { s with consumed := s.n } ∨
    ∃ b rest, byteStepOf ty s =
        finish .ok (setResult (accValue ty (s.takeByte ty b rest).acc) (s.n + 1) (s.takeByte ty b rest)) ∧
          (ty.isVariable = false → s.n + 1 = ty.cap) ∨
      byteStepOf ty s = s.takeByte ty b rest ∧ s.n + 1 ≠ ty.cap := by
  cases hv : ty.isVariable with
  | true =>
    simp only [byteStepOf, accValue, State.takeByte, accWithByte, hv, if_true]
    rcases varStreamStep_cases ty.width ty.cap s with ⟨-, -, e⟩ | ⟨-, -, e⟩ | ⟨b, rest, -, ⟨-, e⟩ | ⟨hc, e⟩⟩
    · exact .inl e
    · exact .inr (.inl ⟨trivial, e⟩)
    · exact .inr (.inr (.inr ⟨b, rest, .inl ⟨e, nofun⟩⟩))
    · exact .inr (.inr (.inr ⟨b, rest, .inr ⟨e, hc.2⟩⟩))
  | false =>
    simp only [byteStepOf, accValue, State.takeByte, accWithByte, hv, Bool.false_eq_true, if_false]
    rcases fixStreamStep_cases ty.cap ty.signed s with ⟨-, -, e⟩ | ⟨-, -, e⟩ | ⟨b, rest, -, ⟨hc, e⟩ | ⟨hc, e⟩⟩
    · exact .inl e
    · exact .inr (.inr (.inl e))
    · exact .inr (.inr (.inr ⟨b, rest, .inl ⟨hc ▸ e, fun _ => hc⟩⟩))
    · exact .inr (.inr (.inr ⟨b, rest, .inr ⟨e, hc⟩⟩))

end Sys2Proof.Machine
end

/-! ## A codec step completes its command or leaves it in progress (10_state.md R24, R29, R30) -/

section
namespace Sys2Proof.Machine

theorem exists_instrOf (i : Instr) : ∃ ty o, i = instrOf ty o := ⟨i.ty, i.op, (instr_eta i).symm⟩

theorem finish_completes (st : Status) (s : State) :
    (finish st s).busy = false ∧ (finish st s).done = true ∧ (finish st s).phase = .idle := ⟨rfl, rfl, rfl⟩

/-- Settles O35: every outcome of a command shape is a `finish`, the begin or a step of a stream read, or an offer held
on the sink. -/
theorem completesOrStaysInProgress : Obligations.CompletesOrStaysInProgress := by
  intro i s t h
  obtain ⟨ty, o, rfl⟩ := exists_instrOf i
  rw [instrOf_op]
  cases o with
  | write => rcases exec_write_cases h with ⟨l, -, rfl⟩ | ⟨e, rfl⟩ <;> exact .inl (finish_completes _ _)
  | read => rcases exec_read_cases h with ⟨v, k, -, -, rfl⟩ | rfl <;> exact .inl (finish_completes _ _)
  | writes =>
    rcases exec_writes_cases h with ⟨l, -, rfl | ⟨hr, rfl⟩⟩ | ⟨-, e, rfl⟩
    · exact .inl (finish_completes _ _)
    · exact .inr ⟨rfl, rfl, rfl, .inr ⟨rfl, rfl, hr, nofun⟩⟩
    · exact .inl (finish_completes _ _)
  | reads =>
    rcases exec_reads_cases h with ⟨-, rfl⟩ | ⟨⟨ty', hp⟩, rfl⟩
    · exact .inr ⟨rfl, rfl, rfl, .inl ⟨rfl, nofun⟩⟩
    · have busyPhase : s.phase ≠ .idle := by simp [hp]
      rcases byteStepOf_cases ty s with e | ⟨-, e⟩ | e | ⟨b, rest, ⟨e, -⟩ | ⟨e, -⟩⟩ <;> rw [e]
      · exact .inr ⟨rfl, rfl, rfl, .inl ⟨rfl, busyPhase⟩⟩
      · exact .inl (finish_completes _ _)
      · exact .inl (finish_completes _ _)
      · exact .inl (finish_completes _ _)
      · exact .inr ⟨rfl, rfl, rfl, .inl ⟨rfl, busyPhase⟩⟩

/-! ### The inputs of a command in progress -/

/-- The state with the host's OPERAND and input replaced. -/
def State.withInputs (v : Int) (l : List Byte) (s : State) : State := { s with operand := v, ibuf := l }

theorem streamRead_withInputs (v : Int) (l : List Byte) (s : State) :
    streamRead (s.withInputs v l) = ((streamRead s).1, (streamRead s).2.withInputs v l) := by
  simp only [streamRead, State.withInputs]
  split <;> rfl

theorem varStreamStep_withInputs (W cap : Nat) (v : Int) (l : List Byte) (s : State) :
    varStreamStep W cap (s.withInputs v l) = (varStreamStep W cap s).withInputs v l := by
  simp only [varStreamStep, streamRead_withInputs]
  rcases streamRead s with ⟨b | _ | _, s'⟩
  · dsimp only
    rw [apply_ite (State.withInputs v l)]
    rfl
  · rfl
  · rfl

theorem fixStreamStep_withInputs (N : Nat) (signed : Bool) (v : Int) (l : List Byte) (s : State) :
    fixStreamStep N signed (s.withInputs v l) = (fixStreamStep N signed s).withInputs v l := by
  simp only [fixStreamStep, streamRead_withInputs]
  rcases streamRead s with ⟨b | _ | _, s'⟩
  · dsimp only
    rw [apply_ite (State.withInputs v l)]
    rfl
  · rfl
  · rfl

/-- A step of a stream read neither reads nor writes the host's inputs. -/
theorem byteStepOf_withInputs (ty : CodecType) (v : Int) (l : List Byte) (s : State) :
    byteStepOf ty (s.withInputs v l) = (byteStepOf ty s).withInputs v l := by
  unfold byteStepOf
  split
  · exact varStreamStep_withInputs _ _ v l s
  · exact fixStreamStep_withInputs _ _ v l s

theorem streamWrite_withInputs (offer : List Byte) (v : Int) (l : List Byte) (s : State) :
    streamWrite offer (s.withInputs v l) = (streamWrite offer s).withInputs v l := by
  unfold streamWrite
  rw [apply_ite (State.withInputs v l)]
  rfl

/-- Settles O42: a stream read looks at the stream alone, and a held WRITES at the list it latched. -/
theorem inputsAreLatchedAtAcceptance : Obligations.InputsAreLatchedAtAcceptance := by
  intro i s t v l running h
  obtain ⟨ty, o, rfl⟩ := exists_instrOf i
  rw [instrOf_op, instrOf_ty] at running
  show exec (instrOf ty o) (s.withInputs v l) = .next (t.withInputs v l)
  rcases running with ⟨rfl, hp⟩ | ⟨rfl, ho⟩
  · rw [exec_reads_byteStepOf, readsCommand, hp] at h
    cases h
    rw [← byteStepOf_withInputs, exec_reads_byteStepOf, readsCommand]
    simp [State.withInputs, hp]
  · obtain ⟨offer, hoffer⟩ := Option.ne_none_iff_exists'.1 ho
    rw [exec_writes_encoderOf, writesCommand, hoffer] at h
    cases h
    rw [← streamWrite_withInputs, exec_writes_encoderOf, writesCommand]
    simp [State.withInputs, hoffer]

/-! ### OBUF_LEN -/

/-- A WRITE that ends with OK leaves the encoding in OBUF, and one that does not leaves OBUF alone. -/
theorem exec_write_obuf {ty : CodecType} {s t : State} (h : exec (instrOf ty .write) s = .next t) :
    (t.status = .ok ∧ encoderOf ty s.operand = .ok t.obuf) ∨ (t.status ≠ .ok ∧ t.obuf = s.obuf) := by
  rcases exec_write_cases h with ⟨l, hl, rfl⟩ | ⟨e, rfl⟩
  · exact .inl ⟨rfl, hl⟩
  · exact .inr ⟨by cases e <;> simp [ErrorCode.status], rfl⟩

theorem exec_obuf_of_ne_write {ty : CodecType} {o : Op} {s t : State} (ho : o ≠ .write)
    (h : exec (instrOf ty o) s = .next t) : t.obuf = s.obuf := by
  cases o with
  | write => exact absurd rfl ho
  | read => rcases exec_read_cases h with ⟨v, k, -, -, rfl⟩ | rfl <;> rfl
  | writes => rcases exec_writes_cases h with ⟨l, -, rfl | ⟨-, rfl⟩⟩ | ⟨-, e, rfl⟩ <;> rfl
  | reads =>
    rcases exec_reads_cases h with ⟨-, rfl⟩ | ⟨-, rfl⟩
    · rfl
    · rcases byteStepOf_cases ty s with e | ⟨-, e⟩ | e | ⟨b, rest, ⟨e, -⟩ | ⟨e, -⟩⟩ <;> rw [e] <;> rfl

/-- A step with a next state took a CMD write only if no command was in progress. -/
theorem runCommand_of_step_writeCmd {s t : State} {w : Byte} {rest : List Turn}
    (ha : s.agenda = .host (.writeCmd w) :: rest) (h : step s = .next t) :
    runCommand (accept w { s with agenda := rest }) = .next t := by
  by_cases hb : s.busy = true
  · simp [step_cons ha, runTurn, hostTurn, hb] at h
  · rw [← step_writeCmd ha (Bool.eq_false_iff.2 hb), h]

/-- Settles O19: acceptance empties OBUF, and only a WRITE that ends with OK fills it, with its encoding. -/
theorem obufLenAfterEachCommand : Obligations.ObufLenAfterEachCommand := by
  intro s t w rest ha h
  have run := runCommand_of_step_writeCmd ha h
  cases hd : decode w with
  | error e =>
    rw [runCommand_of_reserved (s := accept w _) hd] at run
    cases run
    exact ⟨nofun, fun _ => rfl⟩
  | ok i =>
    rw [runCommand_of_decode (s := accept w _) hd] at run
    obtain ⟨ty, o, rfl⟩ := exists_instrOf i
    by_cases ho : o = .write
    · subst ho
      rcases exec_write_obuf run with ⟨hok, henc⟩ | ⟨hne, hobuf⟩
      · obtain ⟨one, cap, fixed⟩ := encoderOf_length henc
        refine ⟨fun i hi _ _ => ?_, ?_⟩
        · cases hi
          rw [instrOf_ty]
          refine ⟨one, ?_⟩
          cases ty with
          | varint => exact cap
          | varlong => exact cap
          | _ => exact fixed rfl
        · rintro (other | bad)
          · exact absurd (instrOf_op ty .write) (other _ rfl)
          · exact absurd hok bad
      · exact ⟨fun _ _ _ hok => absurd hok hne, fun _ => congrArg List.length hobuf⟩
    · refine ⟨fun i hi hw => ?_, fun _ => congrArg List.length (exec_obuf_of_ne_write ho run)⟩
      cases hi
      exact absurd ((instrOf_op ty o).symm.trans hw) ho

end Sys2Proof.Machine
end

/-! ## The sound states (10_state.md R19 to R25, R30; 60_exceptions.md R119) -/
section
namespace Sys2Proof.Machine

/-! ### Counters of a stream read -/

theorem accWithByte_lt {ty : CodecType} {acc n : Nat} (b : Byte) (h : acc < 2 ^ (ty.bitsPerByte * n)) :
    accWithByte ty acc n b < 2 ^ (ty.bitsPerByte * (n + 1)) := by
  cases hv : ty.isVariable with
  | true =>
    simp only [accWithByte, CodecType.bitsPerByte, hv, if_true] at h ⊢
    have payloadBound : payload b + 1 ≤ 2 ^ 7 := by rw [payload_toNat]; omega
    rw [or_payload_shift _ h]
    calc acc + payload b * 2 ^ (7 * n)
        < (payload b + 1) * 2 ^ (7 * n) := by rw [Nat.add_mul]; omega
      _ ≤ 2 ^ 7 * 2 ^ (7 * n) := Nat.mul_le_mul_right _ payloadBound
      _ = 2 ^ (7 * (n + 1)) := by rw [Nat.mul_add, Nat.add_comm (7 * n), pow_add]
  | false =>
    simp only [accWithByte, CodecType.bitsPerByte, hv, Bool.false_eq_true, if_false] at h ⊢
    have byteBound : b.toNat < 2 ^ 8 := b.isLt
    rw [Nat.mul_add, pow_add]
    omega

/-- A magnitude of at most cap bytes fits the 70 bits of ACC (R25). -/
theorem acc_lt_width {ty : CodecType} {acc n : Nat} (h : acc < 2 ^ (ty.bitsPerByte * n)) (hn : n ≤ ty.cap) :
    acc < 2 ^ 70 := by
  have bits : ty.bitsPerByte * ty.cap ≤ 70 := by cases ty <;> decide
  exact h.trans_le (Nat.pow_le_pow_right (by decide) ((Nat.mul_le_mul_left _ hn).trans bits))

/-! ### A command that runs -/

/-- The state a command's codec step starts from: just accepted, or in progress. It is the invariant of a busy block
but for `busyHolds`, which acceptance does not yet meet. -/
structure State.Running (s : State) : Prop where
  busy : s.busy = true
  done : s.done = false
  cleared : s.status = .ok ∧ s.result = none ∧ s.consumed = 0 ∧ s.obuf = []
  streamRead : ∀ ty, s.phase = .streamRead ty →
    s.sinkOffer = none ∧ decode s.cmd = .ok (instrOf ty .reads) ∧ s.n < ty.cap ∧ s.acc < 2 ^ (ty.bitsPerByte * s.n)
  offer : ∀ l, s.sinkOffer = some l →
    s.phase = .idle ∧ 1 ≤ l.length ∧ l.length ≤ 10 ∧ ∃ ty, decode s.cmd = .ok (instrOf ty .writes)
  counters : s.n ≤ 10 ∧ s.acc < 2 ^ 70

theorem accept_running (w : Byte) (s : State) : (accept w s).Running where
  busy := rfl
  done := rfl
  cleared := ⟨rfl, rfl, rfl, rfl⟩
  streamRead := nofun
  offer := nofun
  counters := ⟨Nat.zero_le _, Nat.two_pow_pos 70⟩

theorem State.Inv.running {s : State} (h : s.Inv) (hb : s.busy = true) : s.Running :=
  have hd : s.done = false := Bool.eq_false_iff.2 fun hd => h.busyXorDone ⟨hb, hd⟩
  { busy := hb
    done := hd
    cleared := h.clearedUntilDone hd
    streamRead := fun ty hp => (h.streamRead ty hp).2
    offer := fun l hl => (h.offer l hl).2
    counters := h.widths.2.2 }

/-- A command that goes on holding is sound. -/
theorem State.Running.inv {s : State} (h : s.Running) (holds : s.phase ≠ .idle ∨ s.sinkOffer ≠ none) : s.Inv :=
  have ⟨status, result, consumed, obuf⟩ := h.cleared
  { busyXorDone := by simp [h.done]
    clearedUntilDone := fun _ => h.cleared
    streamRead := fun ty hp => ⟨h.busy, h.streamRead ty hp⟩
    offer := fun l hl => ⟨h.busy, h.offer l hl⟩
    busyHolds := fun _ => holds
    widths := ⟨by simp [consumed], by simp [obuf], h.counters⟩
    errorOutputs := fun he => absurd status he
    resultTyped := by simp [result]
    obufTyped := fun hne => absurd obuf hne
    consumedTyped := fun hne => absurd consumed hne }

/-- Only a WRITES has an offer latched. -/
theorem State.Running.sinkOffer_eq_none {s : State} {ty : CodecType} {o : Op} (h : s.Running)
    (hd : decode s.cmd = .ok (instrOf ty o)) (ho : o ≠ .writes) : s.sinkOffer = none := by
  cases hl : s.sinkOffer with
  | none => rfl
  | some l =>
    obtain ⟨-, -, -, ty', hw⟩ := h.offer l hl
    have e := congrArg Instr.op (Except.ok.inj (hd.symm.trans hw))
    rw [instrOf_op, instrOf_op] at e
    exact absurd e ho

/-- The type in PHASE is the type CMD names, and the counters are bounded by it. -/
theorem State.Running.counters_of_reads {s : State} {ty ty' : CodecType} (h : s.Running)
    (hd : decode s.cmd = .ok (instrOf ty .reads)) (hp : s.phase = .streamRead ty') :
    ty = ty' ∧ s.n < ty.cap ∧ s.acc < 2 ^ (ty.bitsPerByte * s.n) := by
  obtain ⟨-, hd', counters⟩ := h.streamRead ty' hp
  have same : ty = ty' := by
    have e := congrArg Instr.ty (Except.ok.inj (hd.symm.trans hd'))
    rwa [instrOf_ty, instrOf_ty] at e
  subst same
  exact ⟨rfl, counters⟩

/-! ### A command that ends -/

/-- A completed state is sound when its outputs are: nothing is left offered, and each output is one its command makes. -/
theorem inv_finish {st : Status} {s : State} (offer : s.sinkOffer = none)
    (widths : s.consumed ≤ 10 ∧ s.obuf.length ≤ 10 ∧ s.n ≤ 10 ∧ s.acc < 2 ^ 70)
    (errorOutputs : st ≠ .ok → s.result = none ∧ s.obuf = [])
    (resultTyped : ∀ v, s.result = some v → ∃ i, decode s.cmd = .ok i ∧ (i.op = .read ∨ i.op = .reads) ∧
      domainLow i.ty ≤ v ∧ v ≤ domainHigh i.ty)
    (obufTyped : s.obuf ≠ [] → ∃ i, decode s.cmd = .ok i ∧ i.op = .write)
    (consumedTyped : s.consumed ≠ 0 → ∃ i, decode s.cmd = .ok i ∧ (i.op = .read ∨ i.op = .reads)) :
    (finish st s).Inv where
  busyXorDone := by simp
  clearedUntilDone := nofun
  streamRead := nofun
  offer := by simp [offer]
  busyHolds := nofun
  widths := widths
  errorOutputs := errorOutputs
  resultTyped := resultTyped
  obufTyped := obufTyped
  consumedTyped := consumedTyped

/-- A command that ends without an output. -/
theorem State.Running.inv_finish {s : State} (h : s.Running) (offer : s.sinkOffer = none) (st : Status) :
    (finish st s).Inv := by
  obtain ⟨-, result, consumed, obuf⟩ := h.cleared
  refine Machine.inv_finish offer ⟨?_, ?_, h.counters⟩ ?_ ?_ ?_ ?_ <;> simp [result, consumed, obuf]

/-- A WRITE that leaves its encoding in OBUF. -/
theorem State.Running.inv_finish_memWrite {s : State} {ty : CodecType} {v : Int} {l : List Byte} (h : s.Running)
    (hd : decode s.cmd = .ok (instrOf ty .write)) (hl : encoderOf ty v = .ok l) : (finish .ok (memWrite l s)).Inv := by
  obtain ⟨-, result, consumed, -⟩ := h.cleared
  obtain ⟨-, cap, -⟩ := encoderOf_length hl
  refine Machine.inv_finish (h.sinkOffer_eq_none hd nofun) ⟨?_, cap.trans (cap_bounds ty).2, h.counters⟩ ?_ ?_ ?_ ?_
  case refine_4 => exact fun _ => ⟨_, hd, instrOf_op ty .write⟩
  all_goals simp [result, consumed]

/-- A READ, or a READS, that reports a value. -/
theorem State.Running.inv_finish_setResult {s : State} {ty : CodecType} {o : Op} {v : Int} {k : Nat} (h : s.Running)
    (hd : decode s.cmd = .ok (instrOf ty o)) (ho : o = .read ∨ o = .reads)
    (hv : domainLow ty ≤ v ∧ v ≤ domainHigh ty) (hk : k ≤ ty.cap) : (finish .ok (setResult v k s)).Inv := by
  obtain ⟨-, -, -, obuf⟩ := h.cleared
  have reads : (instrOf ty o).op = .read ∨ (instrOf ty o).op = .reads := by rwa [instrOf_op]
  refine Machine.inv_finish (h.sinkOffer_eq_none hd (by rcases ho with rfl | rfl <;> nofun))
    ⟨hk.trans (cap_bounds ty).2, by simp [obuf], h.counters⟩ nofun (fun v' hv' => ?_) (fun hne => absurd obuf hne)
    (fun _ => ⟨_, hd, reads⟩)
  cases hv'
  exact ⟨_, hd, reads, by rwa [instrOf_ty]⟩

/-- A READS that ends with an error reports how many bytes it took. -/
theorem State.Running.inv_finish_consumed {s : State} {ty : CodecType} {k : Nat} (h : s.Running)
    (hd : decode s.cmd = .ok (instrOf ty .reads)) (hk : k ≤ 10) (st : Status) :
    (finish st { s with consumed := k }).Inv := by
  obtain ⟨-, result, -, obuf⟩ := h.cleared
  refine Machine.inv_finish (h.sinkOffer_eq_none hd nofun) ⟨hk, ?_, h.counters⟩ ?_ ?_ ?_
    (fun _ => ⟨_, hd, .inr (instrOf_op ty .reads)⟩) <;> simp [result, obuf]

/-- A running READS with other counters, its PHASE left out: `finish` sets PHASE in any case. -/
theorem State.Running.withCounters {s : State} {ty : CodecType} {acc n : Nat} (h : s.Running)
    (hd : decode s.cmd = .ok (instrOf ty .reads)) (rest : List Byte) (hn : n ≤ ty.cap)
    (hacc : acc < 2 ^ (ty.bitsPerByte * n)) :
    State.Running { s with sin := rest, acc := acc, n := n, phase := .idle } :=
  { h with
    streamRead := nofun
    offer := fun l hl => absurd hl (by simp [h.sinkOffer_eq_none hd nofun])
    counters := ⟨hn.trans (cap_bounds ty).2, acc_lt_width hacc hn⟩ }

/-- A running READS in its stream read, fewer than cap bytes taken. -/
theorem State.Running.inStreamRead {s : State} {ty : CodecType} {acc n : Nat} (h : s.Running)
    (hd : decode s.cmd = .ok (instrOf ty .reads)) (rest : List Byte) (hn : n < ty.cap)
    (hacc : acc < 2 ^ (ty.bitsPerByte * n)) :
    State.Running { s with sin := rest, acc := acc, n := n, phase := .streamRead ty } :=
  { h.withCounters hd rest hn.le hacc with
    streamRead := fun ty' hp => by
      cases hp
      exact ⟨h.sinkOffer_eq_none hd nofun, hd, hn, hacc⟩
    offer := fun l hl => absurd hl (by simp [h.sinkOffer_eq_none hd nofun]) }

/-! ### Every codec step keeps a state sound -/

theorem State.Running.inv_of_write {s t : State} {ty : CodecType} (h : s.Running)
    (hd : decode s.cmd = .ok (instrOf ty .write)) (ht : exec (instrOf ty .write) s = .next t) : t.Inv := by
  rcases exec_write_cases ht with ⟨l, hl, rfl⟩ | ⟨e, rfl⟩
  · exact h.inv_finish_memWrite hd hl
  · exact h.inv_finish (h.sinkOffer_eq_none hd nofun) _

theorem State.Running.inv_of_read {s t : State} {ty : CodecType} (h : s.Running)
    (hd : decode s.cmd = .ok (instrOf ty .read)) (ht : exec (instrOf ty .read) s = .next t) : t.Inv := by
  rcases exec_read_cases ht with ⟨v, k, hv, hk, rfl⟩ | rfl
  · exact h.inv_finish_setResult hd (.inl rfl) hv hk
  · exact h.inv_finish (h.sinkOffer_eq_none hd nofun) _

/-- A WRITES sends its list and ends, or offers it: the list it has latched or the encoding it has just made. -/
theorem State.Running.inv_of_writes {s t : State} {ty : CodecType} (h : s.Running)
    (hd : decode s.cmd = .ok (instrOf ty .writes)) (ht : exec (instrOf ty .writes) s = .next t) : t.Inv := by
  have noStream : s.phase = .idle := by
    cases hp : s.phase with
    | idle => rfl
    | streamRead ty' =>
      obtain ⟨-, hd', -⟩ := h.streamRead ty' hp
      have e := congrArg Instr.op (Except.ok.inj (hd.symm.trans hd'))
      rw [instrOf_op, instrOf_op] at e
      cases e
  have offering (l : List Byte) (one : 1 ≤ l.length) (ten : l.length ≤ 10) :
      State.Running { s with sinkOffer := some l } :=
    { h with
      streamRead := fun ty' hp => absurd (noStream.symm.trans hp) nofun
      offer := fun l' hl' => by cases hl'; exact ⟨noStream, one, ten, ty, hd⟩ }
  rcases exec_writes_cases ht with ⟨l, hl, rfl | ⟨-, rfl⟩⟩ | ⟨hn, e, rfl⟩
  · exact State.Running.inv_finish (s := { s with sout := s.sout ++ l, sinkOffer := none })
      { h with streamRead := fun ty' hp => absurd (noStream.symm.trans hp) nofun, offer := nofun } rfl _
  · refine State.Running.inv ?_ (.inr nofun)
    rcases hl with latched | ⟨-, encoded⟩
    · obtain ⟨-, one, ten, -⟩ := h.offer l latched
      exact offering l one ten
    · obtain ⟨one, cap, -⟩ := encoderOf_length encoded
      exact offering l one (cap.trans (cap_bounds ty).2)
  · exact h.inv_finish hn _

/-- A step of a stream read in progress. -/
theorem State.Running.inv_of_byteStepOf {s : State} {ty ty' : CodecType} (h : s.Running)
    (hd : decode s.cmd = .ok (instrOf ty .reads)) (hp : s.phase = .streamRead ty') : (byteStepOf ty s).Inv := by
  obtain ⟨rfl, hn, hacc⟩ := h.counters_of_reads hd hp
  have next (b : Byte) := accWithByte_lt b hacc
  rcases byteStepOf_cases ty s with e | ⟨hv, e⟩ | e | ⟨b, rest, ⟨e, last⟩ | ⟨e, more⟩⟩ <;> rw [e]
  · exact h.inv (.inl (by simp [hp]))
  · exact h.inv_finish_setResult hd (.inr rfl) (accValue_inDomain fun hf => by simp [hv] at hf) hn.le
  · exact h.inv_finish_consumed hd h.counters.1 _
  · refine (h.withCounters hd rest hn (next b)).inv_finish_setResult hd (.inr rfl) (accValue_inDomain fun hf => ?_) hn
    have bound := next b
    rwa [last hf, CodecType.bitsPerByte, if_neg (by simp [hf])] at bound
  · rw [State.takeByte, hp]
    exact (h.inStreamRead hd rest (lt_of_le_of_ne hn more) (next b)).inv (.inl nofun)

theorem State.Running.inv_of_reads {s t : State} {ty : CodecType} (h : s.Running)
    (hd : decode s.cmd = .ok (instrOf ty .reads)) (ht : exec (instrOf ty .reads) s = .next t) : t.Inv := by
  rcases exec_reads_cases ht with ⟨-, rfl⟩ | ⟨⟨ty', hp⟩, rfl⟩
  · exact (h.inStreamRead hd s.sin (cap_bounds ty).1 (Nat.two_pow_pos _)).inv (.inl nofun)
  · exact h.inv_of_byteStepOf hd hp

/-- A codec step of the command CMD holds, reserved words included. -/
theorem State.Running.inv_of_runCommand {s t : State} (h : s.Running) (ht : runCommand s = .next t) : t.Inv := by
  cases hd : decode s.cmd with
  | error e =>
    rw [runCommand_of_reserved hd] at ht
    cases ht
    refine h.inv_finish ?_ _
    cases hl : s.sinkOffer with
    | none => rfl
    | some l =>
      obtain ⟨-, -, -, ty, hw⟩ := h.offer l hl
      cases hd.symm.trans hw
  | ok i =>
    rw [runCommand_of_decode hd] at ht
    obtain ⟨ty, o, rfl⟩ := exists_instrOf i
    cases o with
    | write => exact h.inv_of_write hd ht
    | read => exact h.inv_of_read hd ht
    | reads => exact h.inv_of_reads hd ht
    | writes => exact h.inv_of_writes hd ht

/-- Settles O46: an idle block with nothing done, offered or reported. -/
theorem soundAtReset : Obligations.SoundAtReset where
  busyXorDone := by decide
  clearedUntilDone _ := ⟨rfl, rfl, rfl, rfl⟩
  streamRead := nofun
  offer := nofun
  busyHolds := nofun
  widths := by decide
  errorOutputs h := absurd rfl h
  resultTyped := nofun
  obufTyped h := absurd rfl h
  consumedTyped h := absurd rfl h

/-- Settles O47: a step leaves the block alone, resets it, or runs a command from a state that a sound busy block and an
acceptance both are, and from which every command shape ends or holds soundly. -/
theorem everyStepKeepsSound : Obligations.EveryStepKeepsSound := by
  intro s t h ht
  rcases step_next_cases ht with same | ⟨hb, agenda, run⟩ | ⟨-, w, rest, -, run⟩ | ⟨rest, -, rfl⟩
  · exact (inv_block_iff t).1 (same ▸ (inv_block_iff s).2 h)
  · exact State.Running.inv_of_runCommand (s := { s with agenda := agenda }) { h.running hb with } run
  · exact (accept_running w _).inv_of_runCommand run
  · exact { soundAtReset with }

end Sys2Proof.Machine
end

/-! ## Stream writes and the sink (20_memory.md R38, R39) -/

section
namespace Sys2Proof.Machine

theorem finish_eq_completedWith (st : Status) (s : State) : finish st s = s.completedWith st := rfl

/-- A value of the type's domain has an encoding (R71, R91). -/
theorem encoderOf_ok {ty : CodecType} {v : Int} (lo : domainLow ty ≤ v) (hi : v ≤ domainHigh ty) :
    ∃ l, encoderOf ty v = .ok l := by
  cases ty with
  | varint => exact ⟨_, varEncode_ok (W := 32) lo hi⟩
  | varlong => exact ⟨_, varEncode_ok (W := 64) lo hi⟩
  | int => exact ⟨_, fixEncode_signed_ok (N := 4) lo hi⟩
  | long => exact ⟨_, fixEncode_signed_ok (N := 8) lo hi⟩
  | uint => exact ⟨_, fixEncode_unsigned_ok (N := 4) lo hi⟩
  | ulong => exact ⟨_, fixEncode_unsigned_ok (N := 8) lo hi⟩

theorem exec_write_of_encoding {ty : CodecType} {s : State} {l : List Byte} (hl : encoderOf ty s.operand = .ok l) :
    exec (instrOf ty .write) s = .next (State.completedWith .ok { s with obuf := l }) := by
  rw [exec_write_encoderOf, writeCommand, hl]
  rfl

/-- A WRITES with nothing latched offers the encoding of OPERAND. -/
theorem exec_writes_of_encoding {ty : CodecType} {s : State} {l : List Byte} (hn : s.sinkOffer = none)
    (hl : encoderOf ty s.operand = .ok l) : exec (instrOf ty .writes) s = .next (streamWrite l s) := by
  simp only [exec_writes_encoderOf, writesCommand, hn, hl]

/-- A held WRITES offers the list it latched, whatever OPERAND holds. -/
theorem exec_writes_of_offer {ty : CodecType} {s : State} {l : List Byte} (hl : s.sinkOffer = some l) :
    exec (instrOf ty .writes) s = .next (streamWrite l s) := by
  simp only [exec_writes_encoderOf, writesCommand, hl]

theorem streamWrite_ready {s : State} (l : List Byte) (hr : s.sinkReady = true) :
    streamWrite l s = State.completedWith .ok { s with sout := s.sout ++ l, sinkOffer := none } := by
  rw [streamWrite, if_pos hr]
  rfl

theorem streamWrite_unready {s : State} (l : List Byte) (hr : s.sinkReady = false) :
    streamWrite l s = { s with sinkOffer := some l } := by
  rw [streamWrite, if_neg (by simp [hr])]

/-- Settles O17: WRITE and WRITES encode OPERAND alike; the one stores the list, the other sends it. -/
theorem writesSendsWhatWriteStores : Obligations.WritesSendsWhatWriteStores := by
  intro s ty ready noOffer lo hi
  obtain ⟨l, hl⟩ := encoderOf_ok lo hi
  refine ⟨l, exec_write_of_encoding hl, ?_⟩
  rw [exec_writes_of_encoding noOffer hl, streamWrite_ready l ready, ← noOffer]

/-- Settles O18: the accepting step latches the encoding; from then on the command reads the latch and the sink's
readiness only. -/
theorem writesHoldsUntilTheSinkAccepts : Obligations.WritesHoldsUntilTheSinkAccepts := by
  intro s ty unready noOffer lo hi
  obtain ⟨l, hl⟩ := encoderOf_ok lo hi
  refine ⟨l, exec_write_of_encoding hl, ?_, fun v => ⟨?_, ?_⟩⟩
  · rw [exec_writes_of_encoding noOffer hl, streamWrite_unready l unready]
  · rw [exec_writes_of_offer rfl, streamWrite_unready l]
    exact unready
  · rw [exec_writes_of_offer rfl, streamWrite_ready l rfl, ← noOffer]

end Sys2Proof.Machine
end

/-! ## What a command leaves as it was (20_memory.md R36, R40, R41, R45, R52) -/

section
namespace Sys2Proof.Machine

/-- Settles O26: the three answers of `streamRead_cases` exclude each other. -/
theorem streamReadPrimitive : Obligations.StreamReadPrimitive := by
  intro s
  rcases streamRead_cases s with ⟨b, rest, h, e⟩ | ⟨h, he, e⟩ | ⟨h, he, e⟩
  · refine ⟨fun b' rest' h' => ?_, fun h' => ?_, fun h' => ?_⟩
    · cases h.symm.trans h'
      exact e
    · cases h.symm.trans h'
    · cases h.symm.trans h'
  · simp [h, he, e]
  · simp [h, he, e]

/-- The part of the state that no command writes: the command's inputs (R52) and what belongs to the other agents. -/
def State.environment (s : State) :
    Byte × Int × List Byte × Bool × Bool × Option HostValue × Nat × List Turn :=
  (s.cmd, s.operand, s.ibuf, s.sinEos, s.sinkReady, s.hostData, s.freeCount, s.agenda)

/-- A step of a stream read writes nothing of the environment, and nothing of the sink's side. -/
theorem byteStepOf_frame (ty : CodecType) (s : State) :
    (byteStepOf ty s).environment = s.environment ∧ (byteStepOf ty s).sout = s.sout ∧
      (byteStepOf ty s).sinkOffer = s.sinkOffer := by
  rcases byteStepOf_cases ty s with e | ⟨-, e⟩ | e | ⟨b, rest, ⟨e, -⟩ | ⟨e, -⟩⟩ <;> rw [e] <;> exact ⟨rfl, rfl, rfl⟩

/-- A step of a stream read takes the head of SIN or nothing (R36). -/
theorem byteStepOf_sin (ty : CodecType) (s : State) :
    (byteStepOf ty s).sin = s.sin ∨ ∃ b, s.sin = b :: (byteStepOf ty s).sin := by
  unfold byteStepOf
  split
  · rcases varStreamStep_cases ty.width ty.cap s with ⟨-, -, e⟩ | ⟨-, -, e⟩ | ⟨b, rest, h, ⟨-, e⟩ | ⟨-, e⟩⟩ <;> rw [e]
    exacts [.inl rfl, .inl rfl, .inr ⟨b, h⟩, .inr ⟨b, h⟩]
  · rcases fixStreamStep_cases ty.cap ty.signed s with ⟨-, -, e⟩ | ⟨-, -, e⟩ | ⟨b, rest, h, ⟨-, e⟩ | ⟨-, e⟩⟩ <;> rw [e]
    exacts [.inl rfl, .inl rfl, .inr ⟨b, h⟩, .inr ⟨b, h⟩]

theorem exec_environment {i : Instr} {s t : State} (h : exec i s = .next t) : t.environment = s.environment := by
  obtain ⟨ty, o, rfl⟩ := exists_instrOf i
  cases o with
  | write => rcases exec_write_cases h with ⟨l, -, rfl⟩ | ⟨e, rfl⟩ <;> rfl
  | read => rcases exec_read_cases h with ⟨v, k, -, -, rfl⟩ | rfl <;> rfl
  | writes => rcases exec_writes_cases h with ⟨l, -, rfl | ⟨-, rfl⟩⟩ | ⟨-, e, rfl⟩ <;> rfl
  | reads =>
    rcases exec_reads_cases h with ⟨-, rfl⟩ | ⟨-, rfl⟩
    · rfl
    · exact (byteStepOf_frame ty s).1

/-- Settles O38: every field named is one of the environment. -/
theorem noCommandWritesItsInputs : Obligations.NoCommandWritesItsInputs := by
  intro i s t h
  have same := exec_environment h
  simp only [State.environment, Prod.mk.injEq] at same
  obtain ⟨cmd, operand, ibuf, rest⟩ := same
  exact ⟨cmd, operand, congrArg List.length ibuf, fun a => congrArg (·[a]?) ibuf, rest⟩

/-- Settles O39: each outcome of a command shape is `s` with its destinations replaced. -/
theorem frameOfEachCommandShape : Obligations.FrameOfEachCommandShape := by
  intro i s t h
  obtain ⟨ty, o, rfl⟩ := exists_instrOf i
  rw [instrOf_op]
  have obuf (ho : o ≠ .write) (a : Nat) : t.obuf[a]? = s.obuf[a]? := by rw [exec_obuf_of_ne_write ho h]
  cases o with
  | write => rcases exec_write_cases h with ⟨l, -, rfl⟩ | ⟨e, rfl⟩ <;> exact ⟨rfl, rfl, rfl, rfl, rfl, rfl, rfl⟩
  | read =>
    refine ⟨obuf nofun, ?_⟩
    rcases exec_read_cases h with ⟨v, k, -, -, rfl⟩ | rfl <;> exact ⟨rfl, rfl, rfl, rfl, rfl⟩
  | reads =>
    refine ⟨obuf nofun, ?_⟩
    rcases exec_reads_cases h with ⟨-, rfl⟩ | ⟨-, rfl⟩
    · exact ⟨rfl, rfl, .inl rfl⟩
    · obtain ⟨-, sout, offer⟩ := byteStepOf_frame ty s
      exact ⟨sout, offer, byteStepOf_sin ty s⟩
  | writes =>
    refine ⟨obuf nofun, ?_⟩
    rcases exec_writes_cases h with ⟨l, -, rfl | ⟨-, rfl⟩⟩ | ⟨-, e, rfl⟩
    · exact ⟨rfl, rfl, rfl, rfl, rfl, List.prefix_append s.sout l⟩
    · exact ⟨rfl, rfl, rfl, rfl, rfl, List.prefix_rfl⟩
    · exact ⟨rfl, rfl, rfl, rfl, rfl, List.prefix_rfl⟩

end Sys2Proof.Machine
end

/-! ## The streams are first-in first-out (20_memory.md R49) -/

section
namespace Sys2Proof.Machine

/-- What R49 lets happen to the two streams between `s` and `t`. -/
def State.FifoNext (s t : State) : Prop :=
  (t.sin = s.sin ∨ (∃ b, s.sin = b :: t.sin) ∨ ∃ l, t.sin = s.sin ++ l) ∧ s.sout <+: t.sout ∧
    (s.sinEos = true → t.sinEos = true)

theorem State.FifoNext.refl (s : State) : s.FifoNext s := ⟨.inl rfl, List.prefix_rfl, id⟩

/-- A command loses the head of SIN if it is a READS, and extends SOUT if it is a WRITES. -/
theorem fifoNext_of_exec {i : Instr} {s t : State} (h : exec i s = .next t) : s.FifoNext t := by
  have frame := frameOfEachCommandShape i s t h
  obtain ⟨-, -, -, -, sameEos, -⟩ := noCommandWritesItsInputs i s t h
  have eos : s.sinEos = true → t.sinEos = true := sameEos.trans
  cases ho : i.op with
  | write =>
    rw [ho] at frame
    obtain ⟨-, -, -, -, sin, sout, -⟩ := frame
    exact ⟨.inl sin, sout ▸ List.prefix_rfl, eos⟩
  | read =>
    rw [ho] at frame
    obtain ⟨-, -, -, sin, sout, -⟩ := frame
    exact ⟨.inl sin, sout ▸ List.prefix_rfl, eos⟩
  | reads =>
    rw [ho] at frame
    obtain ⟨-, sout, -, sin⟩ := frame
    exact ⟨sin.imp_right .inl, sout ▸ List.prefix_rfl, eos⟩
  | writes =>
    rw [ho] at frame
    obtain ⟨-, -, -, -, -, sin, sout⟩ := frame
    exact ⟨.inl sin, sout, eos⟩

theorem fifoNext_of_runCommand {s t : State} (h : runCommand s = .next t) : s.FifoNext t := by
  cases hd : decode s.cmd with
  | ok i => exact fifoNext_of_exec ((runCommand_of_decode hd).symm.trans h)
  | error e =>
    cases (runCommand_of_reserved hd).symm.trans h
    exact .refl s

theorem fifoNext_of_codecTurn {s t : State} (h : codecTurn s = .next t) : s.FifoNext t := by
  by_cases hb : s.busy = true
  · exact fifoNext_of_runCommand ((codecTurn_busy hb).symm.trans h)
  · cases (codecTurn_idle (Bool.eq_false_iff.2 hb)).symm.trans h
    exact .refl s

/-- The host moves the streams only by a command its CMD write starts. -/
theorem fifoNext_of_hostTurn {a : HostAction} {s t : State} (h : hostTurn a s = .next t) : s.FifoNext t := by
  cases a with
  | writeCmd w =>
    simp only [hostTurn] at h
    split at h
    · cases h
    · exact fifoNext_of_runCommand (s := accept w s) h
  | read r =>
    simp only [hostTurn] at h
    split at h <;> cases h
    exact .refl s
  | _ => cases h; exact .refl s

/-- The source appends at the end of SIN, or sets SIN_EOS (R35). -/
theorem fifoNext_of_sourceTurn {a : SourceAction} {s t : State} (h : sourceTurn a s = .next t) : s.FifoNext t := by
  simp only [sourceTurn] at h
  split at h
  · cases h
  · cases a with
    | append l => cases h; exact ⟨.inr (.inr ⟨l, rfl⟩), List.prefix_rfl, id⟩
    | endStream => cases h; exact ⟨.inl rfl, List.prefix_rfl, fun _ => rfl⟩

theorem fifoNext_of_runTurn {turn : Turn} {s t : State} (h : runTurn turn s = .next t) : s.FifoNext t := by
  cases turn with
  | codec => exact fifoNext_of_codecTurn h
  | host a => exact fifoNext_of_hostTurn h
  | source a => exact fifoNext_of_sourceTurn h
  | sink ready => cases h; exact .refl s
  | reset => cases h; exact .refl s
  | awaitDone =>
    simp only [runTurn] at h
    split at h
    · exact fifoNext_of_codecTurn (s := { s with agenda := .awaitDone :: s.agenda }) h
    · cases h
      exact .refl s

/-- Settles O40: the codec's turn of an empty agenda, or the turn at its head. -/
theorem streamsAreFirstInFirstOut : Obligations.StreamsAreFirstInFirstOut := by
  intro s t h
  cases ha : s.agenda with
  | nil => exact fifoNext_of_codecTurn ((step_nil ha).symm.trans h)
  | cons turn rest => exact fifoNext_of_runTurn (s := { s with agenda := rest }) ((step_cons ha).symm.trans h)

end Sys2Proof.Machine
end

/-! ## The command word (30_encoding.md R62 to R66) -/

section
namespace Sys2Proof

/-! ### The fields of a word and their values -/

theorem typeField_toNat (w : Byte) : (typeField w).toNat = w.toNat % 8 := by simp [typeField]

theorem rsvField_toNat (w : Byte) : (rsvField w).toNat = w.toNat / 32 := by
  have bound := w.isLt
  simp only [rsvField, BitVec.extractLsb'_toNat, Nat.shiftRight_eq_div_pow]
  omega

/-- A word is its three fields in order. -/
theorem word_eq_append_fields (w : Byte) : ((rsvField w ++ opField w : BitVec 5) ++ typeField w : Byte) = w := by
  apply BitVec.eq_of_getLsbD_eq
  intro i hi
  simp only [rsvField, opField, typeField, BitVec.getLsbD_append, BitVec.getLsbD_extractLsb']
  split_ifs with type op
  · simp [type]
  · simp [show i - 3 < 2 by omega, show 3 + (i - 3) = i by omega]
  · simp [show i - 3 - 2 < 3 by omega, show 5 + (i - 3 - 2) = i by omega]

/-- An OP and a TYPE value side by side, as a number: `OP << 3 | TYPE`. -/
theorem append_op_type_toNat (o : BitVec 2) (t : BitVec 3) :
    ((0b000#3 ++ o : BitVec 5) ++ t : Byte).toNat = o.toNat * 8 + t.toNat := by
  revert o t
  decide

theorem decodeType_eq_some_iff (t : BitVec 3) (ty : CodecType) : decodeType t = some ty ↔ encodeType ty = t := by
  cases ty <;> revert t <;> decide

theorem decodeType_eq_none_iff (t : BitVec 3) : decodeType t = none ↔ 6 ≤ t.toNat := by
  revert t
  decide

theorem encodeOp_decodeOp (o : BitVec 2) : encodeOp (decodeOp o) = o := by
  revert o
  decide

/-! ### The decoder -/

theorem decode_eq_ok_iff (w : Byte) (i : Instr) :
    decode w = .ok i ↔
      rsvField w = 0#3 ∧ ∃ ty, decodeType (typeField w) = some ty ∧ i = instrOf ty (decodeOp (opField w)) := by
  unfold decode
  split
  · next hr => exact iff_of_false nofun fun h => hr h.1
  · next hr =>
    have hr : rsvField w = 0#3 := not_not.1 hr
    cases ht : decodeType (typeField w) <;> simp [hr, eq_comm]

theorem decode_eq_error_iff (w : Byte) :
    (∃ e, decode w = .error e) ↔ rsvField w ≠ 0#3 ∨ decodeType (typeField w) = none := by
  unfold decode
  split
  · next hr => exact iff_of_true ⟨_, rfl⟩ (.inl hr)
  · next hr =>
    have hr : rsvField w = 0#3 := not_not.1 hr
    cases decodeType (typeField w) <;> simp [hr]

theorem decode_encode (i : Instr) : decode (encode i) = .ok i := by cases i <;> rfl

/-- A word the decoder accepts has RSV = 000, and its OP and TYPE are those of the command. -/
theorem encode_of_decode {w : Byte} {i : Instr} (h : decode w = .ok i) : encode i = w := by
  obtain ⟨rsv, ty, type, rfl⟩ := (decode_eq_ok_iff w i).1 h
  rw [encode, Machine.instrOf_op, Machine.instrOf_ty, encodeOp_decodeOp, (decodeType_eq_some_iff _ _).1 type, ← rsv,
    word_eq_append_fields]

theorem encode_toNat (i : Instr) : (encode i).toNat = (encodeOp i.op).toNat * 8 + (encodeType i.ty).toNat :=
  append_op_type_toNat _ _

/-- Settles O1: the 24 words by evaluation, the encoder by its fields. -/
theorem commandWordsOfTheTable : Obligations.CommandWordsOfTheTable :=
  ⟨by decide, by decide, by decide, by decide, encode_toNat⟩

/-- Settles O2: the decoder rejects a word by its RSV or its TYPE field, and reads nothing else but OP. -/
theorem decodeAndEncodeAgree : Obligations.DecodeAndEncodeAgree := by
  refine ⟨decode_encode, fun w i => encode_of_decode, fun w => ?_⟩
  have rsv : rsvField w ≠ 0#3 ↔ 32 ≤ w.toNat := by
    rw [ne_eq, ← BitVec.toNat_inj, rsvField_toNat, BitVec.toNat_ofNat]
    omega
  rw [decode_eq_error_iff, rsv, decodeType_eq_none_iff, typeField_toNat]

end Sys2Proof
end

/-! ## Assembler lines (30_encoding.md R68) -/

section
namespace Sys2Proof.Machine

theorem stepN_one (s : State) : stepN 1 s = step s := by
  simp only [stepN]
  cases step s <;> rfl

theorem stepN_succ_of_next {k : Nat} {s t : State} (h : step s = .next t) : stepN (k + 1) s = stepN k t := by
  simp only [stepN, h]

/-- A CMD write of a command's own word runs that command. -/
theorem step_writeCmd_encode {s : State} {i : Instr} {rest : List Turn}
    (ha : s.agenda = .host (.writeCmd (encode i)) :: rest) (hb : s.busy = false) :
    step s = exec i (accept (encode i) { s with agenda := rest }) := by
  rw [step_writeCmd ha hb]
  exact runCommand_of_decode (s := accept (encode i) { s with agenda := rest }) (decode_encode i)

/-- The two host actions of a line with an operand: the OPERAND write, then the CMD write. -/
theorem stepN_writeOperand_writeCmd {s : State} {i : Instr} {v : Int} {rest : List Turn}
    (ha : s.agenda = .host (.writeOperand v) :: .host (.writeCmd (encode i)) :: rest) (hb : s.busy = false) :
    stepN 2 s = exec i (accept (encode i) { s with operand := v, agenda := rest }) := by
  rw [stepN_succ_of_next (step_cons ha), stepN_one]
  exact step_writeCmd_encode rfl hb

/-- The two host actions of a line with an input: the IBUF write, then the CMD write. -/
theorem stepN_writeIbuf_writeCmd {s : State} {i : Instr} {l : List Byte} {rest : List Turn}
    (ha : s.agenda = .host (.writeIbuf l) :: .host (.writeCmd (encode i)) :: rest) (hb : s.busy = false) :
    stepN 2 s = exec i (accept (encode i) { s with ibuf := l, agenda := rest }) := by
  rw [stepN_succ_of_next (step_cons ha), stepN_one]
  exact step_writeCmd_encode rfl hb

/-- Settles O45: each line is its host actions, then the wait that stays on the agenda. -/
theorem assemblerLinesRunTheirCommand : Obligations.AssemblerLinesRunTheirCommand := by
  refine fun s ty rest hb => ⟨fun v ha => ?_, fun v ha => ?_, fun l ha => ?_, fun ha => ?_, fun w ha => ?_⟩
  · exact stepN_writeOperand_writeCmd ha hb
  · exact stepN_writeOperand_writeCmd ha hb
  · exact stepN_writeIbuf_writeCmd ha hb
  · rw [stepN_one]
    exact step_writeCmd_encode ha hb
  · rw [stepN_one]
    exact step_writeCmd ha hb

end Sys2Proof.Machine
end

/-! ## The wire formats of the WRITE commands (30_encoding.md R54 to R58) -/

section
namespace Sys2Proof.Machine

/-! ### The chunks of a magnitude (R54, R71) -/

theorem two_pow_chunk_succ (m : Nat) : 2 ^ (7 * (m + 1)) = 2 ^ (7 * m) * 128 := pow_add 2 (7 * m) 7

/-- Setting bit 7 of a chunk adds 128. -/
theorem chunk_or_flag {p : Nat} (h : p < 128) : BitVec.ofNat 8 p ||| 0x80#8 = BitVec.ofNat 8 (p + 128) := by
  have or_add := Nat.two_pow_add_eq_or_of_lt (i := 7) h 1
  apply BitVec.eq_of_toNat_eq
  rw [BitVec.toNat_or, BitVec.toNat_ofNat, BitVec.toNat_ofNat, BitVec.toNat_ofNat, Nat.mod_eq_of_lt (a := p) (by omega),
    Nat.mod_eq_of_lt (a := p + 128) (by omega), Nat.lor_comm, Nat.add_comm]
  exact or_add.symm

/-- The loop ends with a chunk that holds all that remains. -/
theorem varChunks_last (fuel : Nat) {u : Nat} (h : u < 128) : varChunks (fuel + 1) u = [BitVec.ofNat 8 u] := by
  have low : u &&& 127 = u := (Nat.and_two_pow_sub_one_eq_mod u 7).trans (Nat.mod_eq_of_lt h)
  have rest : u >>> 7 = 0 := by rw [Nat.shiftRight_eq_div_pow]; omega
  simp [varChunks, low, rest]

/-- While more than a chunk remains, the loop emits the low 7 bits, flagged, and goes on with the rest. -/
theorem varChunks_more (fuel : Nat) {u : Nat} (h : 128 ≤ u) :
    varChunks (fuel + 1) u = BitVec.ofNat 8 (u % 128 + 128) :: varChunks fuel (u / 128) := by
  have low : u &&& 127 = u % 128 := Nat.and_two_pow_sub_one_eq_mod u 7
  have rest : u >>> 7 = u / 128 := Nat.shiftRight_eq_div_pow u 7
  simp only [varChunks, low, rest, chunk_or_flag (Nat.mod_lt u (by decide))]
  rw [if_pos (by omega)]

theorem isVarWire_singleton {u : Nat} (h : u < 128) : isVarWire u [BitVec.ofNat 8 u] := by
  refine ⟨le_rfl, h, fun m hm _ => hm, fun i b hb => ?_⟩
  cases i with
  | zero =>
    cases hb
    simp only [BitVec.toNat_ofNat]
    exact ⟨by omega, by simp; omega⟩
  | succ i => simp at hb

/-- One chunk in front of a wire format: the low 7 bits, with the continuation flag. -/
theorem isVarWire_cons {u : Nat} {l : List Byte} (h : 128 ≤ u) (tail : isVarWire (u / 128) l) :
    isVarWire u (BitVec.ofNat 8 (u % 128 + 128) :: l) := by
  have shift (m : Nat) : u / 128 < 2 ^ (7 * m) ↔ u < 2 ^ (7 * (m + 1)) := by
    rw [Nat.div_lt_iff_lt_mul (by decide), two_pow_chunk_succ]
  obtain ⟨pos, fits, least, bytes⟩ := tail
  refine ⟨by simp, (shift _).1 fits, fun m hm hu => ?_, fun i b hb => ?_⟩
  · obtain _ | _ | m := m
    · omega
    · exact absurd hu (by simpa using h)
    · simpa using least (m + 1) (by omega) ((shift _).2 hu)
  · cases i with
    | zero =>
      cases hb
      simp only [BitVec.toNat_ofNat, List.length_cons]
      constructor
      · simp
      · rw [if_pos (by omega)]
        omega
    | succ i =>
      obtain ⟨low, flag⟩ := bytes i b hb
      refine ⟨?_, by simpa using flag⟩
      rw [low, Nat.div_div_eq_div_mul, Nat.mul_comm 128, two_pow_chunk_succ]

/-- The chunking loop emits the wire format of every magnitude its byte bound can hold. -/
theorem varChunks_isVarWire (fuel : Nat) {u : Nat} (h : u < 2 ^ (7 * (fuel + 1))) :
    isVarWire u (varChunks (fuel + 1) u) := by
  induction fuel generalizing u with
  | zero =>
    rw [varChunks_last 0 h]
    exact isVarWire_singleton h
  | succ fuel ih =>
    by_cases small : u < 128
    · rw [varChunks_last _ small]
      exact isVarWire_singleton small
    · rw [varChunks_more _ (Nat.le_of_not_lt small)]
      refine isVarWire_cons (Nat.le_of_not_lt small) (ih ?_)
      rw [Nat.div_lt_iff_lt_mul (by decide)]
      rwa [two_pow_chunk_succ] at h

/-- The length of a wire format is fixed by the magnitude. -/
theorem isVarWire_length_le_iff {u m : Nat} {l : List Byte} (h : isVarWire u l) (hm : 1 ≤ m) :
    l.length ≤ m ↔ u < 2 ^ (7 * m) := by
  obtain ⟨-, fits, least, -⟩ := h
  exact ⟨fun hl => fits.trans_le (Nat.pow_le_pow_right (by decide) (Nat.mul_le_mul_left 7 hl)), least m hm⟩

/-- The last byte of a wire format is the magnitude's highest chunk, with bit 7 clear. -/
theorem isVarWire_last_le {u : Nat} {l : List Byte} {b : Byte} (h : isVarWire u l) (hb : l[l.length - 1]? = some b) :
    b.toNat ≤ u / 2 ^ (7 * (l.length - 1)) := by
  obtain ⟨pos, -, -, bytes⟩ := h
  obtain ⟨low, flag⟩ := bytes _ b hb
  rw [if_neg (by omega)] at flag
  have chunk := Nat.mod_le (u / 2 ^ (7 * (l.length - 1))) 128
  omega

/-! ### VarEncode and FixEncode (R71, R91) -/

/-- The magnitude VarEncode chunks is `v mod 2^W`. -/
theorem varEncode_magnitude {W : Nat} {v : Int} (lo : -(2 ^ W) ≤ v) (hi : v < 2 ^ W) :
    (if v < 0 then (v + 2 ^ W).toNat else v.toNat) = (v % 2 ^ W).toNat := by
  split
  · next neg => rw [← Int.add_emod_right, Int.emod_eq_of_lt (by omega) (by omega)]
  · next pos => rw [Int.emod_eq_of_lt (by omega) hi]

theorem emod_two_pow_toNat_lt (v : Int) (W : Nat) : (v % 2 ^ W).toNat < 2 ^ W := by
  zify
  rw [Int.toNat_of_nonneg (Int.emod_nonneg _ (by positivity))]
  exact Int.emod_lt_of_pos _ (by positivity)

/-- VarEncode of a value of the signed domain of width `k + 1` emits the wire format of `v mod 2^(k+1)`. -/
theorem varEncode_isVarWire {k : Nat} {v : Int} (lo : -(2 ^ k) ≤ v) (hi : v ≤ 2 ^ k - 1) :
    ∃ l, varEncode (k + 1) v = .ok l ∧ isVarWire (v % 2 ^ (k + 1)).toNat l := by
  have double : (2 : Int) ^ (k + 1) = 2 ^ k * 2 := pow_succ 2 k
  refine ⟨_, varEncode_ok lo hi, ?_⟩
  rw [varEncode_magnitude (by omega) (by omega), show (k + 1 + 6) / 7 = k / 7 + 1 by omega]
  exact varChunks_isVarWire _
    ((emod_two_pow_toNat_lt v _).trans_le (Nat.pow_le_pow_right (by decide) (by omega)))

/-- The list FixEncode builds is the big-endian wire format. -/
theorem bigEndianBytes_isFixedWire (N u : Nat) :
    isFixedWire N u ((List.range N).map fun i => BitVec.ofNat 8 (u >>> (8 * (N - 1 - i)))) := by
  refine ⟨by simp, fun i b hb => ?_⟩
  simp only [List.getElem?_map, Option.map_eq_some_iff] at hb
  obtain ⟨j, hj, rfl⟩ := hb
  obtain ⟨hi, rfl⟩ := List.getElem?_eq_some_iff.1 hj
  simp [Nat.shiftRight_eq_div_pow]

/-! ### The WRITE commands -/

/-- A variable-length WRITE of a value of the domain completes with the wire format of `v mod 2^W` in OBUF. -/
theorem exec_write_isVarWire {ty : CodecType} {s : State} (hv : ty.isVariable = true) (lo : domainLow ty ≤ s.operand)
    (hi : s.operand ≤ domainHigh ty) :
    ∃ l, exec (instrOf ty .write) s = .next (State.completedWith .ok { s with obuf := l }) ∧
      isVarWire (s.operand % 2 ^ ty.width).toNat l := by
  have encodes : ∃ l, encoderOf ty s.operand = .ok l ∧ isVarWire (s.operand % 2 ^ ty.width).toNat l := by
    cases ty with
    | varint => exact varEncode_isVarWire (k := 31) lo hi
    | varlong => exact varEncode_isVarWire (k := 63) lo hi
    | int | uint | long | ulong => cases hv
  obtain ⟨l, hl, wire⟩ := encodes
  exact ⟨l, exec_write_of_encoding hl, wire⟩

/-- A wire format as long as the cap of a width uses only that width's remaining bits in its last byte (R55). -/
theorem isVarWire_last_lt {u W cap : Nat} {l : List Byte} {b : Byte} (h : isVarWire u l) (hu : u < 2 ^ W)
    (hW : 7 * (cap - 1) ≤ W) (hl : l.length = cap) (hb : l[cap - 1]? = some b) :
    b.toNat < 2 ^ (W - 7 * (cap - 1)) := by
  subst hl
  refine (isVarWire_last_le h hb).trans_lt (Nat.div_lt_of_lt_mul ?_)
  rwa [← pow_add, Nat.add_sub_cancel' hW]

/-- Settles O13: VarEncode chunks `v mod 2^W`, and the cap is the least number of chunks that holds W bits. -/
theorem variableWriteEmitsTheWireFormat : Obligations.VariableWriteEmitsTheWireFormat := by
  intro s i W cap command lo hi
  have magnitude := emod_two_pow_toNat_lt s.operand W
  rcases command with ⟨rfl, rfl, rfl⟩ | ⟨rfl, rfl, rfl⟩
  · obtain ⟨l, run, wire⟩ := exec_write_isVarWire (ty := .varint) rfl lo hi
    exact ⟨l, run, wire, (isVarWire_length_le_iff wire (by decide)).2 (magnitude.trans (by decide)), fun b =>
      isVarWire_last_lt wire magnitude (by decide)⟩
  · obtain ⟨l, run, wire⟩ := exec_write_isVarWire (ty := .varlong) rfl lo hi
    exact ⟨l, run, wire, (isVarWire_length_le_iff wire (by decide)).2 (magnitude.trans (by decide)), fun b =>
      isVarWire_last_lt wire magnitude (by decide)⟩

theorem isVarWire_length_le_iff_lt {u : Int} {m : Nat} {l : List Byte} (h : isVarWire u.toNat l) (nonneg : 0 ≤ u)
    (hm : 1 ≤ m) : l.length ≤ m ↔ u < 2 ^ (7 * m) := by
  rw [isVarWire_length_le_iff h hm, Int.toNat_lt nonneg]
  push_cast
  rfl

/-- R58's table: the length of the wire format by the magnitude. -/
theorem isVarWire_length_table {u : Int} {l : List Byte} (h : isVarWire u.toNat l) (nonneg : 0 ≤ u)
    (fits : u < 2 ^ 70) :
    l.length =
      if u < 2 ^ 7 then 1 else if u < 2 ^ 14 then 2 else if u < 2 ^ 21 then 3 else if u < 2 ^ 28 then 4
      else if u < 2 ^ 35 then 5 else if u < 2 ^ 42 then 6 else if u < 2 ^ 49 then 7 else if u < 2 ^ 56 then 8
      else if u < 2 ^ 63 then 9 else 10 := by
  have pos := h.1
  have rows : ∀ m ∈ [1, 2, 3, 4, 5, 6, 7, 8, 9, 10], u < 2 ^ (7 * m) ↔ l.length ≤ m := fun m hm =>
    (isVarWire_length_le_iff_lt h nonneg (by revert m; decide)).symm
  simp only [List.forall_mem_cons, Nat.reduceMul] at rows
  simp only [rows] at fits ⊢
  generalize l.length = n at pos fits ⊢
  interval_cases n <;> rfl

/-- Settles O14: the table of the wire format; a negative value has a magnitude of at least `2^(W-1)`. -/
theorem variableEncodedLength : Obligations.VariableEncodedLength := by
  intro s i W command lo hi
  rcases command with ⟨rfl, rfl⟩ | ⟨rfl, rfl⟩
  · obtain ⟨l, run, wire⟩ := exec_write_isVarWire (ty := .varint) rfl lo hi
    change isVarWire (s.operand % 2 ^ 32).toNat l at wire
    have nonneg : 0 ≤ s.operand % 2 ^ 32 := by omega
    have four := isVarWire_length_le_iff_lt (m := 4) wire nonneg (by decide)
    have five : l.length ≤ 5 := (isVarWire_length_le_iff_lt (m := 5) wire nonneg (by decide)).2 (by omega)
    refine ⟨_, run, isVarWire_length_table wire nonneg (by omega), fun neg => ?_, wire.1, fun _ => five⟩
    show l.length = 5
    omega
  · obtain ⟨l, run, wire⟩ := exec_write_isVarWire (ty := .varlong) rfl lo hi
    change isVarWire (s.operand % 2 ^ 64).toNat l at wire
    have nonneg : 0 ≤ s.operand % 2 ^ 64 := by omega
    have nine := isVarWire_length_le_iff_lt (m := 9) wire nonneg (by decide)
    have ten : l.length ≤ 10 := (isVarWire_length_le_iff_lt (m := 10) wire nonneg (by decide)).2 (by omega)
    refine ⟨_, run, isVarWire_length_table wire nonneg (by omega), fun neg => ?_, wire.1, nofun⟩
    show l.length = 10
    omega

/-- Settles O15: one big-endian list for both signednesses, by the width alone. -/
theorem fixedWriteIsBigEndian : Obligations.FixedWriteIsBigEndian := by
  intro s N hN
  refine ⟨_, bigEndianBytes_isFixedWire N _, fun i command lo hi => ?_⟩
  rcases command with ⟨rfl | rfl, rfl⟩ | ⟨rfl | rfl, rfl⟩
  · exact exec_write_of_encoding (ty := .int) (fixEncode_signed_ok (N := 4) lo hi)
  · exact exec_write_of_encoding (ty := .uint) (fixEncode_unsigned_ok (N := 4) lo hi)
  · exact exec_write_of_encoding (ty := .long) (fixEncode_signed_ok (N := 8) lo hi)
  · exact exec_write_of_encoding (ty := .ulong) (fixEncode_unsigned_ok (N := 8) lo hi)

end Sys2Proof.Machine
end

/-! ## The variable-length decode (30_encoding.md R59, R61; 40_varint.md R72 to R74) -/

section
namespace Sys2Proof.Machine

/-! ### The bytes a decode takes, and their payload sum -/

/-- No byte is taken when the cap is used up or the input is. -/
theorem isVarTaken_zero (cap : Nat) (l : List Byte) (h : cap = 0 ∨ l = []) : isVarTaken cap l 0 :=
  ⟨Nat.zero_le _, Nat.zero_le _, nofun, by rcases h with rfl | rfl <;> simp⟩

/-- A byte with bit 7 clear is the last one taken. -/
theorem isVarTaken_last {b : Byte} (h : b.toNat < 128) (cap : Nat) (rest : List Byte) :
    isVarTaken (cap + 1) (b :: rest) 1 :=
  ⟨by omega, by simp, fun i _ hi => by omega, .inr (.inr ⟨b, by decide, rfl, h⟩)⟩

/-- After a byte with bit 7 set the decode goes on, with one byte less under the cap. -/
theorem isVarTaken_more {b : Byte} {cap n : Nat} {rest : List Byte} (h : 128 ≤ b.toNat)
    (tail : isVarTaken cap rest n) :
    isVarTaken (cap + 1) (b :: rest) (n + 1) := by
  obtain ⟨hcap, hlen, more, stop⟩ := tail
  refine ⟨by omega, by simpa using hlen, fun i c hi hc => ?_, ?_⟩
  · cases i with
    | zero =>
      cases hc
      exact h
    | succ i => exact more i c (by omega) hc
  · rcases stop with full | empty | ⟨c, pos, hc, last⟩
    · exact .inl (by omega)
    · exact .inr (.inl (by simp [empty]))
    · refine .inr (.inr ⟨c, by omega, ?_, last⟩)
      obtain ⟨k, rfl⟩ : ∃ k, n = k + 1 := ⟨n - 1, by omega⟩
      exact hc

theorem payloadSum_zero (l : List Byte) : payloadSum l 0 = 0 := rfl

theorem payloadSum_cons_succ (b : Byte) (rest : List Byte) (n : Nat) :
    payloadSum (b :: rest) (n + 1) = b.toNat % 128 + payloadSum rest n * 128 := by
  simp only [payloadSum, Finset.sum_range_succ', List.getD_cons_zero, List.getD_cons_succ, Finset.sum_mul]
  rw [add_comm]
  congr 1
  · simp
  · exact Finset.sum_congr rfl fun i _ => by rw [two_pow_chunk_succ, mul_assoc]

theorem payloadSum_lt (l : List Byte) (n : Nat) : payloadSum l n < 2 ^ (7 * n) := by
  induction n with
  | zero => exact Nat.one_pos
  | succ n ih =>
    have chunk : (l.getD n 0).toNat % 128 + 1 ≤ 128 := Nat.mod_lt _ (by decide)
    have room := Nat.mul_le_mul_right (2 ^ (7 * n)) chunk
    rw [payloadSum, Finset.sum_range_succ, ← payloadSum, two_pow_chunk_succ]
    rw [Nat.add_mul] at room
    omega

/-! ### The decode loop -/

/-- The loop takes the bytes of R59 and adds their payload sum above what it has accumulated. -/
theorem varDecodeLoop_spec (cap acc n : Nat) (l : List Byte) (h : acc < 2 ^ (7 * n)) :
    ∃ k, varDecodeLoop cap acc n l = (acc + payloadSum l k * 2 ^ (7 * n), n + k) ∧ isVarTaken cap l k := by
  induction cap generalizing acc n l with
  | zero => exact ⟨0, by simp [varDecodeLoop, payloadSum_zero], isVarTaken_zero 0 l (.inl rfl)⟩
  | succ cap ih =>
    cases l with
    | nil => exact ⟨0, by simp [varDecodeLoop_nil, payloadSum_zero], isVarTaken_zero _ [] (.inr rfl)⟩
    | cons b rest =>
      have taken : acc ||| (payload b <<< (7 * n)) = acc + b.toNat % 128 * 2 ^ (7 * n) := by
        rw [or_payload_shift _ h, payload_toNat]
      by_cases last : b.toNat < 128
      · refine ⟨1, ?_, isVarTaken_last last cap rest⟩
        rw [varDecodeLoop_last last, taken, payloadSum_cons_succ, payloadSum_zero]
        simp
      · have more := Nat.le_of_not_lt last
        have bound := accWithByte_lt (ty := .varint) b h
        obtain ⟨k, run, tail⟩ := ih (acc ||| (payload b <<< (7 * n))) (n + 1) rest bound
        refine ⟨k + 1, ?_, isVarTaken_more more tail⟩
        rw [varDecodeLoop_more more, run, taken, payloadSum_cons_succ, two_pow_chunk_succ]
        exact Prod.ext (by ring) (by ring)

/-- VarDecode of any input: the two's complement value of the bytes taken, and their count. -/
theorem varDecode_spec (k cap : Nat) (l : List Byte) :
    ∃ n, varDecode (k + 1) cap l = (twosComplement (k + 1) (payloadSum l n % 2 ^ (k + 1)), n) ∧
      isVarTaken cap l n := by
  obtain ⟨n, run, taken⟩ := varDecodeLoop_spec cap 0 0 l (by decide)
  refine ⟨n, ?_, taken⟩
  rw [varDecode, run, varValue, sext_eq_twosComplement (Nat.mod_lt _ (by positivity))]
  simp

theorem twosComplement_nonneg {k u : Nat} (h : u < 2 ^ k) : 0 ≤ twosComplement (k + 1) (u % 2 ^ (k + 1)) := by
  rw [Nat.mod_eq_of_lt (h.trans (Nat.pow_lt_pow_succ (by decide))), twosComplement, Nat.add_sub_cancel, if_pos h]
  exact Int.natCast_nonneg u

/-- The variable-length READ shape; `hk` says that fewer bytes than the cap cannot reach the sign bit. -/
theorem varReadCommand_spec {k cap : Nat} (s : State) (hk : 7 * (cap - 1) ≤ k) :
    ∃ n v, varReadCommand (k + 1) cap s =
        .next (State.completedWith .ok { s with result := some v, consumed := n }) ∧
      isVarTaken cap s.ibuf n ∧ v = twosComplement (k + 1) (payloadSum s.ibuf n % 2 ^ (k + 1)) ∧
      (n < cap → 0 ≤ v) := by
  obtain ⟨n, run, taken⟩ := varDecode_spec k cap s.ibuf
  refine ⟨n, _, ?_, taken, rfl, fun short => twosComplement_nonneg ?_⟩
  · rw [varReadCommand_next, run]
    rfl
  · exact (payloadSum_lt s.ibuf n).trans_le (Nat.pow_le_pow_right (by decide) (by omega))

/-- Settles O20: the decode loop's invariant is that ACC is the payload sum of the bytes taken. -/
theorem variableReadDecodes : Obligations.VariableReadDecodes := by
  intro s i W cap command
  rcases command with ⟨rfl, rfl, rfl⟩ | ⟨rfl, rfl, rfl⟩
  · exact varReadCommand_spec (k := 31) (cap := 5) s (by decide)
  · exact varReadCommand_spec (k := 63) (cap := 10) s (by decide)

end Sys2Proof.Machine
end

/-! ## What a command's outputs depend on (10_state.md R13; 30_encoding.md R70) -/

section
namespace Sys2Proof.Machine

/-! ### A READ looks at the first cap bytes of its input -/

/-- What a READ of a type reports for an input: the value and the bytes taken, or nothing when a fixed-width type finds
too few bytes (R72, R92). -/
def readReport (ty : CodecType) (l : List Byte) : Option (Int × Nat) :=
  if ty.isVariable then some (varDecode ty.width ty.cap l)
  else if l.length < ty.cap then none
  else some (fixDecode ty.signed (l.take ty.cap), ty.cap)

/-- The end of a READ, by its report. -/
def State.finishRead (report : Option (Int × Nat)) (s : State) : State :=
  match report with
  | some r => finish .ok (setResult r.1 r.2 s)
  | none => finish .shortInput s

theorem exec_read_readReport (ty : CodecType) (s : State) :
    exec (instrOf ty .read) s = .next (s.finishRead (readReport ty s.ibuf)) := by
  rw [exec_read, readReport]
  split
  · rfl
  · rw [fixReadCommand, State.ibufLen]
    split <;> rfl

theorem varDecodeLoop_take (cap acc n : Nat) (l : List Byte) :
    varDecodeLoop cap acc n (l.take cap) = varDecodeLoop cap acc n l := by
  induction cap generalizing acc n l with
  | zero => rfl
  | succ cap ih =>
    cases l with
    | nil => rfl
    | cons b rest => simp only [List.take_succ_cons, varDecodeLoop, ih]

/-- A READ never looks beyond the first cap bytes. -/
theorem readReport_take (ty : CodecType) (l : List Byte) : readReport ty (l.take ty.cap) = readReport ty l := by
  have short : (l.take ty.cap).length < ty.cap ↔ l.length < ty.cap := by simp
  simp only [readReport, varDecode, varDecodeLoop_take, List.take_take, Nat.min_self, short]

/-! ### A step of a stream read, by the answer of the stream -/

theorem byteStepOf_hold {ty : CodecType} {s : State} (h : s.sin = []) (he : s.sinEos = false) :
    byteStepOf ty s = s := by
  cases hv : ty.isVariable <;> simp [byteStepOf, hv, varStreamStep, fixStreamStep, streamRead, h, he]

theorem byteStepOf_eos {ty : CodecType} {s : State} (h : s.sin = []) (he : s.sinEos = true) :
    byteStepOf ty s =
      if ty.isVariable then finish .ok (setResult (accValue ty s.acc) s.n s)
      else finish .shortInput { s with consumed := s.n } := by
  cases hv : ty.isVariable <;>
    simp [byteStepOf, hv, varStreamStep, fixStreamStep, streamRead, h, he, varStreamFinish, accValue, ErrorCode.status]

/-- A byte ends a stream read when it is the last the cap allows or, of a variable-length type, has bit 7 clear. -/
def endsRead (ty : CodecType) (n : Nat) (b : Byte) : Bool :=
  (ty.isVariable && !moreFollow b) || n + 1 == ty.cap

theorem byteStepOf_byte {ty : CodecType} {s : State} {b : Byte} {rest : List Byte} (h : s.sin = b :: rest) :
    byteStepOf ty s =
      if endsRead ty s.n b then
        finish .ok (setResult (accValue ty (accWithByte ty s.acc s.n b)) (s.n + 1) (s.takeByte ty b rest))
      else s.takeByte ty b rest := by
  cases hv : ty.isVariable with
  | true =>
    simp [byteStepOf, endsRead, hv, varStreamStep, streamRead, h, varStreamFinish, accValue, accWithByte,
      State.takeByte]
  | false =>
    by_cases last : s.n + 1 = ty.cap <;>
      simp [byteStepOf, endsRead, hv, fixStreamStep, streamRead, h, accValue, accWithByte, State.takeByte, last]

/-! ### What the host sees, and how far a stream read is -/

theorem outputs_finish_congr {st : Status} {s₁ s₂ : State} (result : s₁.result = s₂.result)
    (consumed : s₁.consumed = s₂.consumed) (obuf : s₁.obuf = s₂.obuf) :
    (finish st s₁).outputs = (finish st s₂).outputs := by
  simp [State.outputs, State.stat, State.resultValid, State.obufLen, result, consumed, obuf]

/-- Two blocks stand alike in a stream read: the same outputs, progress, bytes left and phase. -/
structure SameReading (s₁ s₂ : State) : Prop where
  outputs : s₁.outputs = s₂.outputs
  acc : s₁.acc = s₂.acc
  n : s₁.n = s₂.n
  sin : s₁.sin = s₂.sin
  phase : s₁.phase = s₂.phase

theorem SameReading.registers {s₁ s₂ : State} (h : SameReading s₁ s₂) :
    s₁.result = s₂.result ∧ s₁.consumed = s₂.consumed ∧ s₁.obuf = s₂.obuf := by
  have outputs := h.outputs
  simp only [State.outputs, Prod.mk.injEq] at outputs
  obtain ⟨-, result, consumed, -, obuf⟩ := outputs
  exact ⟨result, consumed, obuf⟩

theorem SameReading.finish_setResult {s₁ s₂ : State} (h : SameReading s₁ s₂) (st : Status) (v : Int) (k : Nat) :
    SameReading (finish st (setResult v k s₁)) (finish st (setResult v k s₂)) :=
  ⟨outputs_finish_congr rfl rfl h.registers.2.2, h.acc, h.n, h.sin, rfl⟩

theorem SameReading.finish_consumed {s₁ s₂ : State} (h : SameReading s₁ s₂) (st : Status) :
    SameReading (finish st { s₁ with consumed := s₁.n }) (finish st { s₂ with consumed := s₂.n }) :=
  ⟨outputs_finish_congr h.registers.1 h.n h.registers.2.2, h.acc, h.n, h.sin, rfl⟩

theorem SameReading.takeByte {s₁ s₂ : State} (h : SameReading s₁ s₂) (ty : CodecType) (b : Byte)
    (rest : List Byte) :
    SameReading (s₁.takeByte ty b rest) (s₂.takeByte ty b rest) where
  outputs := h.outputs
  acc := by simp only [State.takeByte, h.acc, h.n]
  n := congrArg (· + 1) h.n
  sin := rfl
  phase := h.phase

/-- A step of a stream read depends on its progress and on the stream source alone. -/
theorem SameReading.byteStepOf {s₁ s₂ : State} (h : SameReading s₁ s₂) (eos : s₁.sinEos = s₂.sinEos)
    (ty : CodecType) :
    SameReading (byteStepOf ty s₁) (byteStepOf ty s₂) := by
  cases sin₂ : s₂.sin with
  | nil =>
    have sin₁ := h.sin.trans sin₂
    cases eos₂ : s₂.sinEos with
    | false => rwa [byteStepOf_hold sin₁ (eos.trans eos₂), byteStepOf_hold sin₂ eos₂]
    | true =>
      rw [byteStepOf_eos sin₁ (eos.trans eos₂), byteStepOf_eos sin₂ eos₂]
      split
      · rw [h.acc, h.n]
        exact h.finish_setResult _ _ _
      · exact h.finish_consumed _
  | cons b rest =>
    rw [byteStepOf_byte (h.sin.trans sin₂), byteStepOf_byte sin₂, h.acc, h.n]
    split
    · exact (h.takeByte ty b rest).finish_setResult _ _ _
    · exact h.takeByte ty b rest

theorem exec_reads_of_phase {ty ty' : CodecType} {s : State} (h : s.phase = .streamRead ty') :
    exec (instrOf ty .reads) s = .next (byteStepOf ty s) := by
  rw [exec_reads_byteStepOf, readsCommand, h]

/-! ### The accepting step -/

/-- Two commands answer alike: the same outputs, phase and offer, and the same bytes sent. -/
def SameResponse (s₁ s₂ t₁ t₂ : State) : Prop :=
  t₁.outputs = t₂.outputs ∧ t₁.phase = t₂.phase ∧ t₁.sinkOffer = t₂.sinkOffer ∧
    ∃ sent, t₁.sout = s₁.sout ++ sent ∧ t₂.sout = s₂.sout ++ sent

/-- The inputs an entry point reads in its accepting step (R70). -/
def SameInputs (i : Instr) (s₁ s₂ : State) : Prop :=
  match i.op with
  | .write => s₁.operand = s₂.operand
  | .read => s₁.ibuf.take i.ty.cap = s₂.ibuf.take i.ty.cap
  | .reads => True
  | .writes => s₁.operand = s₂.operand ∧ s₁.sinkReady = s₂.sinkReady

theorem sameResponse_of_nothing_sent {s₁ s₂ t₁ t₂ : State} (outputs : t₁.outputs = t₂.outputs)
    (phase : t₁.phase = t₂.phase) (offer : t₁.sinkOffer = t₂.sinkOffer) (sout₁ : t₁.sout = s₁.sout)
    (sout₂ : t₂.sout = s₂.sout) : SameResponse s₁ s₂ t₁ t₂ :=
  ⟨outputs, phase, offer, [], by simpa using sout₁, by simpa using sout₂⟩

theorem sameResponse_of_accept_write {w : Byte} {ty : CodecType} {s₁ s₂ t₁ t₂ : State}
    (operand : s₁.operand = s₂.operand)
    (h₁ : exec (instrOf ty .write) (accept w s₁) = .next t₁)
    (h₂ : exec (instrOf ty .write) (accept w s₂) = .next t₂) :
    SameResponse s₁ s₂ t₁ t₂ := by
  simp only [exec_write_encoderOf, writeCommand, accept_operand, operand] at h₁ h₂
  cases encoded : encoderOf ty s₂.operand <;> rw [encoded] at h₁ h₂ <;> cases h₁ <;> cases h₂ <;>
    exact sameResponse_of_nothing_sent rfl rfl rfl rfl rfl

theorem sameResponse_of_accept_read {w : Byte} {ty : CodecType} {s₁ s₂ t₁ t₂ : State}
    (ibuf : s₁.ibuf.take ty.cap = s₂.ibuf.take ty.cap)
    (h₁ : exec (instrOf ty .read) (accept w s₁) = .next t₁)
    (h₂ : exec (instrOf ty .read) (accept w s₂) = .next t₂) :
    SameResponse s₁ s₂ t₁ t₂ := by
  have report : readReport ty s₁.ibuf = readReport ty s₂.ibuf := by
    rw [← readReport_take ty s₁.ibuf, ibuf, readReport_take]
  rw [exec_read_readReport, accept_ibuf, report] at h₁
  rw [exec_read_readReport, accept_ibuf] at h₂
  cases h₁
  cases h₂
  cases readReport ty s₂.ibuf <;> exact sameResponse_of_nothing_sent rfl rfl rfl rfl rfl

theorem sameResponse_of_accept_reads {w : Byte} {ty : CodecType} {s₁ s₂ t₁ t₂ : State}
    (h₁ : exec (instrOf ty .reads) (accept w s₁) = .next t₁)
    (h₂ : exec (instrOf ty .reads) (accept w s₂) = .next t₂) :
    SameResponse s₁ s₂ t₁ t₂ := by
  rw [readsBegins _ ty rfl] at h₁ h₂
  cases h₁
  cases h₂
  exact sameResponse_of_nothing_sent rfl rfl rfl rfl rfl

theorem sameResponse_of_accept_writes {w : Byte} {ty : CodecType} {s₁ s₂ t₁ t₂ : State}
    (operand : s₁.operand = s₂.operand) (ready : s₁.sinkReady = s₂.sinkReady)
    (h₁ : exec (instrOf ty .writes) (accept w s₁) = .next t₁)
    (h₂ : exec (instrOf ty .writes) (accept w s₂) = .next t₂) :
    SameResponse s₁ s₂ t₁ t₂ := by
  simp only [exec_writes_encoderOf, writesCommand, accept_sinkOffer, accept_operand, operand] at h₁ h₂
  cases encoded : encoderOf ty s₂.operand with
  | error e =>
    rw [encoded] at h₁ h₂
    cases h₁
    cases h₂
    exact sameResponse_of_nothing_sent rfl rfl rfl rfl rfl
  | ok l =>
    rw [encoded] at h₁ h₂
    cases h₁
    cases h₂
    cases ready₂ : s₂.sinkReady with
    | true =>
      rw [streamWrite_ready (s := accept w s₁) l (ready.trans ready₂),
        streamWrite_ready (s := accept w s₂) l ready₂]
      exact ⟨rfl, rfl, rfl, l, rfl, rfl⟩
    | false =>
      rw [streamWrite_unready (s := accept w s₁) l (ready.trans ready₂),
        streamWrite_unready (s := accept w s₂) l ready₂]
      exact sameResponse_of_nothing_sent rfl rfl rfl rfl rfl

/-- Two accepting steps with the inputs of R70 alike answer alike, whatever else the blocks hold. -/
theorem sameResponse_of_accept {w : Byte} {i : Instr} {s₁ s₂ t₁ t₂ : State} (inputs : SameInputs i s₁ s₂)
    (h₁ : exec i (accept w s₁) = .next t₁) (h₂ : exec i (accept w s₂) = .next t₂) :
    SameResponse s₁ s₂ t₁ t₂ := by
  obtain ⟨ty, o, rfl⟩ := exists_instrOf i
  rw [SameInputs, instrOf_op, instrOf_ty] at inputs
  cases o with
  | write => exact sameResponse_of_accept_write inputs h₁ h₂
  | read => exact sameResponse_of_accept_read inputs h₁ h₂
  | reads => exact sameResponse_of_accept_reads h₁ h₂
  | writes => exact sameResponse_of_accept_writes inputs.1 inputs.2 h₁ h₂

theorem exec_of_step_writeCmd {s t : State} {w : Byte} {i : Instr} {rest : List Turn} (hi : decode w = .ok i)
    (ha : s.agenda = .host (.writeCmd w) :: rest) (h : step s = .next t) :
    exec i (accept w { s with agenda := rest }) = .next t :=
  (runCommand_of_decode (s := accept w { s with agenda := rest }) hi).symm.trans (runCommand_of_step_writeCmd ha h)

/-- Settles O43: acceptance clears what an earlier command left, and each command shape reads its own inputs only. -/
theorem ignoredInputsHaveNoEffect : Obligations.IgnoredInputsHaveNoEffect := by
  refine ⟨fun s₁ s₂ t₁ t₂ w i r₁ r₂ hi ha₁ ha₂ h₁ h₂ inputs => ?_,
    fun i s₁ s₂ t₁ t₂ reads phase₁ phase₂ acc n sin eos outputs h₁ h₂ => ?_⟩
  · exact sameResponse_of_accept (s₁ := { s₁ with agenda := r₁ }) (s₂ := { s₂ with agenda := r₂ }) inputs
      (exec_of_step_writeCmd hi ha₁ h₁) (exec_of_step_writeCmd hi ha₂ h₂)
  · obtain ⟨ty, o, rfl⟩ := exists_instrOf i
    obtain rfl : o = .reads := (instrOf_op ty o).symm.trans reads
    rw [exec_reads_of_phase phase₁] at h₁
    rw [exec_reads_of_phase phase₂] at h₂
    cases h₁
    cases h₂
    have same := SameReading.byteStepOf ⟨outputs, acc, n, sin, phase₁.trans phase₂.symm⟩ eos ty
    exact ⟨same.outputs, same.acc, same.n, same.sin, same.phase⟩

end Sys2Proof.Machine
end

/-! ## Values survive a WRITE and the READ of its bytes (40_varint.md R81, R82; 41_varlong.md R89) -/

section
namespace Sys2Proof.Machine

/-- Decoding the chunks of a magnitude adds it above what is accumulated, and takes exactly those bytes, whatever
follows them. -/
theorem varDecodeLoop_varChunks (fuel acc n : Nat) {u : Nat} (x : List Byte) (hacc : acc < 2 ^ (7 * n))
    (hu : u < 2 ^ (7 * (fuel + 1))) :
    varDecodeLoop (fuel + 1) acc n (varChunks (fuel + 1) u ++ x) =
      (acc + u * 2 ^ (7 * n), n + (varChunks (fuel + 1) u).length) := by
  by_cases small : u < 128
  · have chunk : (BitVec.ofNat 8 u).toNat = u := by rw [BitVec.toNat_ofNat]; omega
    rw [varChunks_last _ small, List.singleton_append, varDecodeLoop_last (by rw [chunk]; exact small),
      or_payload_shift _ hacc, payload_toNat, chunk, Nat.mod_eq_of_lt small, List.length_singleton]
  · have large := Nat.le_of_not_lt small
    have chunk : (BitVec.ofNat 8 (u % 128 + 128)).toNat = u % 128 + 128 := by rw [BitVec.toNat_ofNat]; omega
    have taken : acc ||| (payload (BitVec.ofNat 8 (u % 128 + 128)) <<< (7 * n)) = acc + u % 128 * 2 ^ (7 * n) := by
      rw [or_payload_shift _ hacc, payload_toNat, chunk, Nat.add_mod_right, Nat.mod_mod]
    have bound : acc ||| (payload (BitVec.ofNat 8 (u % 128 + 128)) <<< (7 * n)) < 2 ^ (7 * (n + 1)) :=
      accWithByte_lt (ty := .varint) _ hacc
    rw [varChunks_more _ large, List.cons_append, varDecodeLoop_more (by rw [chunk]; omega), List.length_cons]
    cases fuel with
    | zero => omega
    | succ fuel =>
      have rest : u / 128 < 2 ^ (7 * (fuel + 1)) := by
        rw [Nat.div_lt_iff_lt_mul (by decide)]
        rwa [two_pow_chunk_succ] at hu
      rw [varDecodeLoop_varChunks fuel _ (n + 1) x bound rest, taken, two_pow_chunk_succ]
      refine Prod.ext ?_ (by omega)
      calc acc + u % 128 * 2 ^ (7 * n) + u / 128 * (2 ^ (7 * n) * 128)
          = acc + (u % 128 + 128 * (u / 128)) * 2 ^ (7 * n) := by ring
        _ = acc + u * 2 ^ (7 * n) := by rw [Nat.mod_add_div]

/-- The two's complement reading undoes the reduction of a signed value to its magnitude (R74). -/
theorem twosComplement_emod {k : Nat} {v : Int} (lo : -(2 ^ k) ≤ v) (hi : v ≤ 2 ^ k - 1) :
    twosComplement (k + 1) (v % 2 ^ (k + 1)).toNat = v := by
  have double : (2 : Int) ^ (k + 1) = 2 ^ k * 2 := pow_succ 2 k
  rw [← varEncode_magnitude (by omega) (by omega)]
  simp only [twosComplement, Nat.add_sub_cancel, ← Int.ofNat_lt]
  push_cast
  split <;> split <;> omega

/-- VarDecode undoes VarEncode, whatever follows the encoding (R81, R82). -/
theorem varDecode_varEncode {k : Nat} {v : Int} {l : List Byte} (lo : -(2 ^ k) ≤ v) (hi : v ≤ 2 ^ k - 1)
    (hl : varEncode (k + 1) v = .ok l) (x : List Byte) :
    varDecode (k + 1) (k / 7 + 1) (l ++ x) = (v, l.length) := by
  have double : (2 : Int) ^ (k + 1) = 2 ^ k * 2 := pow_succ 2 k
  have magnitude := emod_two_pow_toNat_lt v (k + 1)
  rw [varEncode_ok lo hi, varEncode_magnitude (by omega) (by omega),
    show (k + 1 + 6) / 7 = k / 7 + 1 by omega] at hl
  cases hl
  rw [varDecode, varDecodeLoop_varChunks _ 0 0 x (by decide)
    (magnitude.trans_le (Nat.pow_le_pow_right (by decide) (by omega)))]
  simp only [Nat.mul_zero, Nat.pow_zero, Nat.mul_one, Nat.zero_add, varValue]
  rw [sext_eq_twosComplement (Nat.mod_lt _ (by positivity)), Nat.mod_eq_of_lt magnitude, twosComplement_emod lo hi]

/-- What a variable-length READ reports for an encoding of its type and any bytes behind it. -/
theorem readReport_encoding {ty : CodecType} {v : Int} {l : List Byte} (hv : ty.isVariable = true)
    (lo : domainLow ty ≤ v) (hi : v ≤ domainHigh ty) (hl : encoderOf ty v = .ok l) (x : List Byte) :
    readReport ty (l ++ x) = some (v, l.length) := by
  cases ty with
  | varint => exact congrArg some (varDecode_varEncode (k := 31) lo hi hl x)
  | varlong => exact congrArg some (varDecode_varEncode (k := 63) lo hi hl x)
  | int | uint | long | ulong => cases hv

/-- A variable-length WRITE, then the READ of its bytes and of any others behind them. -/
theorem exec_read_exec_write {ty : CodecType} {s : State} (hv : ty.isVariable = true)
    (lo : domainLow ty ≤ s.operand) (hi : s.operand ≤ domainHigh ty) :
    ∃ t, exec (instrOf ty .write) s = .next t ∧ t.status = .ok ∧
      ∀ (u : State) (x : List Byte), u.ibuf = t.obuf ++ x →
        ∃ r, exec (instrOf ty .read) u = .next r ∧ r.status = .ok ∧ r.result = some s.operand ∧
          r.consumed = t.obufLen ∧ r.ibuf.drop r.consumed = x := by
  obtain ⟨l, hl⟩ := encoderOf_ok lo hi
  refine ⟨_, exec_write_of_encoding hl, rfl, fun u x (hu : u.ibuf = l ++ x) => ?_⟩
  have read := exec_read_readReport ty u
  rw [hu, readReport_encoding hv lo hi hl x] at read
  refine ⟨_, read, rfl, rfl, rfl, ?_⟩
  show u.ibuf.drop l.length = x
  rw [hu, List.drop_left]

/-- Settles O23: the decode loop takes the chunks of the magnitude and nothing behind them, and the sign is recovered
from the magnitude. -/
theorem varIntRoundTrip : Obligations.VarIntRoundTrip :=
  fun _ lo hi => exec_read_exec_write (ty := .varint) rfl lo hi

end Sys2Proof.Machine
end

/-! ## Operands outside the domain (40_varint.md R83; 41_varlong.md R90; 42_fixed_width.md R112; 60_exceptions.md R116) -/

section
namespace Sys2Proof.Machine

/-- A value outside the type's domain has no encoding (R71, R91). -/
theorem encoderOf_error {ty : CodecType} {v : Int} (h : v < domainLow ty ∨ domainHigh ty < v) :
    encoderOf ty v = .error .rangeError := by
  cases ty with
  | varint => exact varEncode_error (W := 32) h
  | varlong => exact varEncode_error (W := 64) h
  | int => exact fixEncode_signed_error (N := 4) h
  | long => exact fixEncode_signed_error (N := 8) h
  | uint => exact fixEncode_unsigned_error (N := 4) h
  | ulong => exact fixEncode_unsigned_error (N := 8) h

/-- Settles O16: the encoder fails before the command stores or offers a byte. -/
theorem outOfRangeOperandIsRejected : Obligations.OutOfRangeOperandIsRejected := by
  intro s i entry outside
  obtain ⟨ty, o, rfl⟩ := exists_instrOf i
  rw [instrOf_op] at entry
  rw [instrOf_ty] at outside
  have rejected := encoderOf_error outside
  rcases entry with rfl | ⟨rfl, noOffer⟩
  · rw [exec_write_encoderOf, writeCommand, rejected]
    rfl
  · simp only [exec_writes_encoderOf, writesCommand, noOffer, rejected]
    rfl

end Sys2Proof.Machine
end

/-! ## One step of a variable-length stream read (40_varint.md R75; 41_varlong.md R84) -/

section
namespace Sys2Proof.Machine

/-- A variable-length type reads an accumulated magnitude as W bits of two's complement (R73, R74). -/
theorem accValue_variable {ty : CodecType} (hv : ty.isVariable = true) (acc : Nat) :
    accValue ty acc = twosComplement ty.width (acc % 2 ^ ty.width) := by
  rw [accValue, if_pos hv, varValue]
  cases ty with
  | varint => exact sext_eq_twosComplement (k := 31) (Nat.mod_lt _ (by decide))
  | varlong => exact sext_eq_twosComplement (k := 63) (Nat.mod_lt _ (by decide))
  | int | uint | long | ulong => cases hv

theorem accWithByte_variable {ty : CodecType} (hv : ty.isVariable = true) (acc n : Nat) (b : Byte) :
    accWithByte ty acc n b = acc ||| (b.toNat % 128) * 2 ^ (7 * n) := by
  rw [accWithByte, if_pos hv, payload_toNat, Nat.shiftLeft_eq]

theorem endsRead_variable_iff {ty : CodecType} (hv : ty.isVariable = true) (n : Nat) (b : Byte) :
    endsRead ty n b = true ↔ b.toNat < 128 ∨ n + 1 = ty.cap := by
  have more := moreFollow_iff b
  cases flag : moreFollow b <;> simp [endsRead, hv, flag] at more ⊢ <;> omega

/-- Settles O28: the answers of the stream, and whether the byte taken ends the read. -/
theorem variableStreamStep : Obligations.VariableStreamStep := by
  intro s i W cap command phase
  obtain ⟨ty, hv, rfl, rfl, rfl⟩ :
      ∃ ty : CodecType, ty.isVariable = true ∧ i = instrOf ty .reads ∧ W = ty.width ∧ cap = ty.cap := by
    rcases command with ⟨rfl, rfl, rfl⟩ | ⟨rfl, rfl, rfl⟩
    · exact ⟨.varint, rfl, rfl, rfl, rfl⟩
    · exact ⟨.varlong, rfl, rfl, rfl, rfl⟩
  rw [exec_reads_of_phase phase]
  refine ⟨fun empty opened => ?_, fun empty ended => ?_, fun b rest head => ⟨fun last => ?_, fun more notCap => ?_⟩⟩
  · rw [byteStepOf_hold empty opened]
  · rw [byteStepOf_eos empty ended, if_pos hv, accValue_variable hv]
    rfl
  · rw [byteStepOf_byte head, if_pos ((endsRead_variable_iff hv _ _).2 last), accValue_variable hv, State.takeByte,
      accWithByte_variable hv]
    rfl
  · have goesOn : ¬endsRead ty s.n b = true := by
      rw [endsRead_variable_iff hv]
      omega
    rw [byteStepOf_byte head, if_neg goesOn, State.takeByte, accWithByte_variable hv]

end Sys2Proof.Machine
end

/-! ## Runs of codec and source turns (10_state.md R12, R36) -/

section
namespace Sys2Proof.Machine

theorem codecTurn_agenda {s t : State} (h : codecTurn s = .next t) : t.agenda = s.agenda := by
  cases hb : s.busy with
  | false =>
    cases (codecTurn_idle hb).symm.trans h
    rfl
  | true =>
    rw [codecTurn_busy hb] at h
    cases hi : decode s.cmd with
    | ok i =>
      obtain ⟨-, -, -, -, -, -, -, -, agenda⟩ := noCommandWritesItsInputs i s t ((runCommand_of_decode hi).symm.trans h)
      exact agenda
    | error e =>
      cases (runCommand_of_reserved hi).symm.trans h
      rfl

theorem sourceTurn_append {l : List Byte} {s t : State} (h : sourceTurn (.append l) s = .next t) :
    s.sinEos = false ∧ t = { s with sin := s.sin ++ l } := by
  cases eos : s.sinEos <;> simp [sourceTurn, eos] at h
  exact ⟨rfl, h.symm⟩

theorem sourceTurn_endStream {s t : State} (h : sourceTurn .endStream s = .next t) :
    t = { s with sinEos := true } := by
  cases eos : s.sinEos <;> simp [sourceTurn, eos] at h
  exact h.symm

/-- What holds of the bytes delivered so far and of the state through every codec and source turn holds when the agenda
is used up, of all the bytes delivered. -/
theorem stepN_turns {P : List Byte → State → Prop}
    (agenda : ∀ {l s} (rest : List Turn), P l s → P l { s with agenda := rest })
    (codec : ∀ {l s t}, P l s → codecTurn s = .next t → P l t)
    (source : ∀ {l s t} (a : SourceAction), P l s → sourceTurn a s = .next t → P (l ++ delivered [.source a]) t)
    {turns : List Turn} {l : List Byte} {k : Nat} {s t : State} (hs : P l s) (ha : s.agenda = turns)
    (allowed : turns.all isCodecOrSource = true) (run : stepN (turns.length + k) s = .next t) :
    ∃ u, u.agenda = [] ∧ P (l ++ delivered turns) u ∧ stepN k u = .next t := by
  induction turns generalizing l s with
  | nil => exact ⟨s, ha, by simpa [delivered] using hs, by simpa using run⟩
  | cons turn rest ih =>
    rw [List.all_cons, Bool.and_eq_true] at allowed
    rw [List.length_cons, Nat.add_right_comm, stepN, step_cons ha] at run
    split at run
    · next u first =>
      have hs := agenda rest hs
      cases turn with
      | codec => exact ih (codec hs first) (codecTurn_agenda first) allowed.2 run
      | source a =>
        have next := source a hs first
        cases a with
        | append l' =>
          obtain ⟨-, rfl⟩ := sourceTurn_append first
          simpa [delivered] using ih next rfl allowed.2 run
        | endStream =>
          obtain rfl := sourceTurn_endStream first
          simpa [delivered] using ih next rfl allowed.2 run
      | host a => cases allowed.1
      | awaitDone => cases allowed.1
      | sink ready => cases allowed.1
      | reset => cases allowed.1
    · cases run
    · cases run

theorem stepN_of_step_self {s : State} (h : step s = .next s) (k : Nat) : stepN k s = .next s := by
  induction k with
  | zero => rfl
  | succ k ih => rwa [stepN_succ_of_next h]

/-- A codec that changes the state only to lower a measure comes to rest in as many steps. -/
theorem stepN_codec {P : State → Prop} {m : State → Nat}
    (codec : ∀ {s t}, P s → codecTurn s = .next t → P t ∧ (t = s ∨ m t < m s))
    {k : Nat} {s t : State} (hs : P s) (ha : s.agenda = []) (hm : m s ≤ k) (run : stepN k s = .next t) :
    P t ∧ codecTurn t = .next t := by
  induction k generalizing s with
  | zero =>
    obtain ⟨u, hu⟩ := codecTurn_hasNext s
    cases run
    rcases (codec hs hu).2 with rfl | less
    · exact ⟨hs, hu⟩
    · omega
  | succ k ih =>
    obtain ⟨u, hu⟩ := codecTurn_hasNext s
    have first := (step_nil ha).trans hu
    obtain ⟨next, rfl | less⟩ := codec hs hu
    · cases (stepN_of_step_self first _).symm.trans run
      exact ⟨hs, hu⟩
    · exact ih next ((codecTurn_agenda hu).trans ha) (by omega) ((stepN_succ_of_next first).symm.trans run)

/-! ### A stream read comes to rest -/

/-- How many bytes a READS of the type may still take. -/
def State.readsLeft (ty : CodecType) (s : State) : Nat := if s.busy then ty.cap - s.n else 0

/-- A step of a stream read that changes the state ends it or uses up a byte of its cap. -/
theorem byteStepOf_self_or_less {ty : CodecType} {s : State} (hb : s.busy = true) (hn : s.n < ty.cap) :
    byteStepOf ty s = s ∨ (byteStepOf ty s).readsLeft ty < s.readsLeft ty := by
  have left : s.readsLeft ty = ty.cap - s.n := if_pos hb
  have used : 0 < ty.cap - s.n := Nat.sub_pos_of_lt hn
  rw [left]
  rcases byteStepOf_cases ty s with e | ⟨-, e⟩ | e | ⟨b, rest, ⟨e, -⟩ | ⟨e, -⟩⟩ <;> rw [e]
  rotate_right
  · have more : (s.takeByte ty b rest).readsLeft ty = ty.cap - (s.n + 1) := if_pos hb
    exact .inr (by omega)
  exacts [.inl rfl, .inr used, .inr used, .inr used]

/-- A stream read in progress rests only on an empty open stream. -/
theorem byteStepOf_eq_self {ty : CodecType} {s : State} (hb : s.busy = true) (h : byteStepOf ty s = s) :
    s.sin = [] ∧ s.sinEos = false := by
  cases sin : s.sin with
  | nil =>
    cases eos : s.sinEos with
    | false => exact ⟨rfl, rfl⟩
    | true =>
      have busy := congrArg State.busy h
      rw [byteStepOf_eos sin eos, hb] at busy
      split at busy <;> cases busy
  | cons b rest =>
    have busy := congrArg State.busy h
    have count := congrArg State.n h
    rw [byteStepOf_byte sin] at busy count
    split at busy
    · rw [hb] at busy
      cases busy
    · next goesOn =>
      rw [if_neg goesOn] at count
      exact absurd count (Nat.succ_ne_self _)

end Sys2Proof.Machine
end

/-! ## Stream and buffer reads of a variable-length type agree (40_varint.md R76; 41_varlong.md R84) -/

section
namespace Sys2Proof.Machine

/-! ### Inputs that hold a whole value -/

/-- The input reaches the end of a variable-length value under the cap: a byte with bit 7 clear, or the cap itself. -/
def endsWithin (cap : Nat) (l : List Byte) : Prop := (∃ b ∈ l.take cap, b.toNat < 128) ∨ cap ≤ l.length

theorem endsWithin_append {cap : Nat} {l : List Byte} (h : endsWithin cap l) (x : List Byte) :
    endsWithin cap (l ++ x) := by
  rcases h with ⟨b, hb, last⟩ | full
  · exact .inl ⟨b, by simp [List.take_append, hb], last⟩
  · exact .inr (by rw [List.length_append]; omega)

/-- Bytes behind the end of a value change nothing. -/
theorem varDecodeLoop_append {cap : Nat} {l : List Byte} (h : endsWithin cap l) (acc n : Nat) (x : List Byte) :
    varDecodeLoop cap acc n (l ++ x) = varDecodeLoop cap acc n l := by
  induction cap generalizing acc n l with
  | zero => rfl
  | succ cap ih =>
    cases l with
    | nil => simp [endsWithin] at h
    | cons b rest =>
      by_cases last : b.toNat < 128
      · rw [List.cons_append, varDecodeLoop_last last, varDecodeLoop_last last]
      · have tail : endsWithin cap rest := by simpa [endsWithin, last] using h
        have more := Nat.le_of_not_lt last
        rw [List.cons_append, varDecodeLoop_more more, varDecodeLoop_more more, ih tail]

theorem varDecode_append {W cap : Nat} {l : List Byte} (h : endsWithin cap l) (x : List Byte) :
    varDecode W cap (l ++ x) = varDecode W cap l := by
  simp only [varDecode, varDecodeLoop_append h]

theorem varDecode_taken_le_length (W cap : Nat) (l : List Byte) : (varDecode W cap l).2 ≤ l.length := by
  obtain ⟨k, run, -, len, -⟩ := varDecodeLoop_spec cap 0 0 l (by decide)
  simpa [varDecode, run] using len

/-- The byte that ends a stream read ends the decode loop. -/
theorem varDecodeLoop_endsRead {ty : CodecType} {n : Nat} {b : Byte} (hv : ty.isVariable = true) (hn : n < ty.cap)
    (h : endsRead ty n b = true) (acc : Nat) (rest : List Byte) :
    varDecodeLoop (ty.cap - n) acc n (b :: rest) = (accWithByte ty acc n b, n + 1) := by
  obtain ⟨m, hm⟩ : ∃ m, ty.cap - n = m + 1 := ⟨ty.cap - n - 1, by omega⟩
  rw [hm, accWithByte, if_pos hv]
  by_cases last : b.toNat < 128
  · rw [varDecodeLoop_last last]
  · obtain rfl : m = 0 := by
      have full := (endsRead_variable_iff hv n b).1 h
      omega
    rw [varDecodeLoop_more (Nat.le_of_not_lt last), varDecodeLoop]

/-! ### The two ends of a variable-length READS -/

/-- A variable-length READS is in progress and has taken the bytes `taken`: what it would make of any bytes `x` still to
come is what a READ makes of them behind `taken`. -/
structure State.Reading (ty : CodecType) (taken : List Byte) (s : State) : Prop where
  phase : s.phase = .streamRead ty
  command : decode s.cmd = .ok (instrOf ty .reads)
  busy : s.busy = true
  notDone : s.done = false
  count : s.n = taken.length
  belowCap : s.n < ty.cap
  goesOn : ∀ b ∈ taken, 128 ≤ b.toNat
  progress : ∀ x, varDecodeLoop ty.cap 0 0 (taken ++ x) = varDecodeLoop (ty.cap - s.n) s.acc s.n x

/-- A variable-length READS has completed as the READ of the bytes `l` does, and has left the rest of them in SIN; it
ended because the value or the stream did. -/
structure State.ReadDone (ty : CodecType) (l : List Byte) (s : State) : Prop where
  idle : s.busy = false
  done : s.done = true
  ok : s.status = .ok
  result : s.result = some (varDecode ty.width ty.cap l).1
  consumed : s.consumed = (varDecode ty.width ty.cap l).2
  rest : s.sin = l.drop s.consumed
  ended : s.sinEos = true ∨ endsWithin ty.cap l

/-- A variable-length READS with the bytes `l` delivered to it stands in between or at its end. -/
def State.ReadingOrDone (ty : CodecType) (l : List Byte) (s : State) : Prop :=
  (∃ taken, s.Reading ty taken ∧ l = taken ++ s.sin) ∨ s.ReadDone ty l

theorem State.readsAccepted.reading {ty : CodecType} {s : State} (h : s.readsAccepted ty) : s.Reading ty [] := by
  obtain ⟨phase, command, busy, notDone, acc, n⟩ := h
  exact ⟨phase, command, busy, notDone, n, by rw [n]; exact (cap_bounds ty).1, nofun, fun x => by simp [acc, n]⟩

theorem readDone_finish {ty : CodecType} {l : List Byte} {s : State} (hv : ty.isVariable = true)
    (loop : varDecodeLoop ty.cap 0 0 l = (s.acc, s.n)) (rest : s.sin = l.drop s.n)
    (ended : s.sinEos = true ∨ endsWithin ty.cap l) :
    (finish .ok (setResult (accValue ty s.acc) s.n s)).ReadDone ty l where
  idle := rfl
  done := rfl
  ok := rfl
  result := by simp [varDecode, loop, accValue, hv]
  consumed := by simp [varDecode, loop]
  rest := rest
  ended := ended

/-! ### The codec's turn -/

theorem State.Reading.codecTurn_eq {ty : CodecType} {taken : List Byte} {s : State} (h : s.Reading ty taken) :
    codecTurn s = .next (byteStepOf ty s) := by
  rw [codecTurn_of_decode h.busy h.command, exec_reads_of_phase h.phase]

theorem State.Reading.readDone_of_eos {ty : CodecType} {taken : List Byte} {s : State} (hv : ty.isVariable = true)
    (h : s.Reading ty taken) (empty : s.sin = []) (eos : s.sinEos = true) :
    (byteStepOf ty s).ReadDone ty taken := by
  rw [byteStepOf_eos empty eos, if_pos hv]
  refine readDone_finish hv ?_ ?_ (.inl eos)
  · simpa [varDecodeLoop_nil] using h.progress []
  · rw [empty, h.count, List.drop_length]

theorem State.Reading.readDone_of_last {ty : CodecType} {taken rest : List Byte} {b : Byte} {s : State}
    (hv : ty.isVariable = true) (h : s.Reading ty taken) (head : s.sin = b :: rest)
    (last : endsRead ty s.n b = true) : (byteStepOf ty s).ReadDone ty (taken ++ b :: rest) := by
  have count := h.count
  have belowCap := h.belowCap
  rw [byteStepOf_byte head, if_pos last]
  refine readDone_finish (s := s.takeByte ty b rest) hv ?_ ?_ (.inr ?_)
  · rw [h.progress, varDecodeLoop_endsRead hv belowCap last]
    rfl
  · show rest = (taken ++ b :: rest).drop (s.n + 1)
    rw [count, ← List.drop_drop, List.drop_left]
    rfl
  · rcases (endsRead_variable_iff hv _ _).1 last with small | full
    · obtain ⟨m, hm⟩ : ∃ m, ty.cap - taken.length = m + 1 := ⟨ty.cap - taken.length - 1, by omega⟩
      exact .inl ⟨b, by simp [List.take_append, hm], small⟩
    · exact .inr (by simp; omega)

theorem State.Reading.takeByte {ty : CodecType} {taken : List Byte} {b : Byte} {s : State}
    (hv : ty.isVariable = true) (h : s.Reading ty taken) (goesOn : ¬endsRead ty s.n b = true) (rest : List Byte) :
    (s.takeByte ty b rest).Reading ty (taken ++ [b]) := by
  have belowCap := h.belowCap
  rw [endsRead_variable_iff hv] at goesOn
  exact
    { phase := h.phase
      command := h.command
      busy := h.busy
      notDone := h.notDone
      count := by simp [State.takeByte, h.count]
      belowCap := by
        show s.n + 1 < ty.cap
        omega
      goesOn := by
        simp only [List.forall_mem_append, List.forall_mem_singleton]
        exact ⟨h.goesOn, by omega⟩
      progress := fun x => by
        rw [List.append_assoc, List.singleton_append, h.progress,
          show ty.cap - s.n = ty.cap - (s.n + 1) + 1 by omega, varDecodeLoop_more (by omega), State.takeByte,
          accWithByte, if_pos hv] }

/-- The codec's turn keeps a READS between its start and the end that the READ of the bytes delivered has, and either
changes nothing or brings it closer. -/
theorem State.ReadingOrDone.of_codecTurn {ty : CodecType} {l : List Byte} {s t : State} (hv : ty.isVariable = true)
    (h : s.ReadingOrDone ty l) (ht : codecTurn s = .next t) :
    t.ReadingOrDone ty l ∧ (t = s ∨ t.readsLeft ty < s.readsLeft ty) := by
  rcases h with ⟨taken, reading, rfl⟩ | done
  · cases reading.codecTurn_eq.symm.trans ht
    refine ⟨?_, byteStepOf_self_or_less reading.busy reading.belowCap⟩
    cases sin : s.sin with
    | nil =>
      rw [List.append_nil]
      cases eos : s.sinEos with
      | false =>
        rw [byteStepOf_hold sin eos]
        exact .inl ⟨taken, reading, by simp [sin]⟩
      | true => exact .inr (reading.readDone_of_eos hv sin eos)
    | cons b rest =>
      by_cases last : endsRead ty s.n b = true
      · exact .inr (reading.readDone_of_last hv sin last)
      · rw [byteStepOf_byte sin, if_neg last]
        exact .inl ⟨taken ++ [b], reading.takeByte hv last rest, by simp [State.takeByte]⟩
  · cases (codecTurn_idle done.idle).symm.trans ht
    exact ⟨.inr done, .inl rfl⟩

/-! ### The source's turn -/

/-- Bytes that arrive behind a completed value stay in SIN. -/
theorem State.ReadDone.append {ty : CodecType} {l : List Byte} {s : State} (h : s.ReadDone ty l)
    (opened : s.sinEos = false) (x : List Byte) : ({ s with sin := s.sin ++ x } : State).ReadDone ty (l ++ x) := by
  have whole : endsWithin ty.cap l := h.ended.resolve_left (by simp [opened])
  have taken : s.consumed ≤ l.length := h.consumed ▸ varDecode_taken_le_length ty.width ty.cap l
  exact
    { h with
      result := by rw [varDecode_append whole]; exact h.result
      consumed := by rw [varDecode_append whole]; exact h.consumed
      rest := by rw [List.drop_append_of_le_length taken, ← h.rest]
      ended := .inr (endsWithin_append whole x) }

theorem State.ReadingOrDone.of_sourceTurn {ty : CodecType} {l : List Byte} {s t : State} (a : SourceAction)
    (h : s.ReadingOrDone ty l) (ht : sourceTurn a s = .next t) :
    t.ReadingOrDone ty (l ++ delivered [.source a]) := by
  cases a with
  | append x =>
    obtain ⟨opened, rfl⟩ := sourceTurn_append ht
    rw [show delivered [.source (.append x)] = x from List.append_nil x]
    rcases h with ⟨taken, reading, rfl⟩ | done
    · exact .inl ⟨taken, { reading with }, List.append_assoc _ _ _⟩
    · exact .inr (done.append opened x)
  | endStream =>
    obtain rfl := sourceTurn_endStream ht
    rw [show delivered [.source .endStream] = [] from rfl, List.append_nil]
    rcases h with ⟨taken, reading, rfl⟩ | done
    · exact .inl ⟨taken, { reading with }, rfl⟩
    · exact .inr { done with ended := .inl rfl }

theorem State.ReadingOrDone.withAgenda {ty : CodecType} {l : List Byte} {s : State} (rest : List Turn)
    (h : s.ReadingOrDone ty l) : ({ s with agenda := rest } : State).ReadingOrDone ty l := by
  rcases h with ⟨taken, reading, rfl⟩ | done
  · exact .inl ⟨taken, { reading with }, rfl⟩
  · exact .inr { done with }

/-! ### Any timing -/

/-- After the agenda's turns and enough codec steps the READS has completed, or holds with every byte taken. -/
theorem readingOrDone_after_turns {ty : CodecType} {turns : List Turn} {k : Nat} {s t : State}
    (hv : ty.isVariable = true) (accepted : s.readsAccepted ty) (ha : s.agenda = turns)
    (allowed : turns.all isCodecOrSource = true) (hk : ty.cap ≤ k) (run : stepN (turns.length + k) s = .next t) :
    t.ReadDone ty (s.sin ++ delivered turns) ∨
      t.Reading ty (s.sin ++ delivered turns) ∧ t.sin = [] ∧ t.sinEos = false := by
  obtain ⟨u, agenda, atEnd, rest⟩ := stepN_turns (P := State.ReadingOrDone ty) .withAgenda
    (fun h ht => (h.of_codecTurn hv ht).1) .of_sourceTurn (.inl ⟨[], accepted.reading, rfl⟩) ha allowed run
  rw [List.nil_append] at atEnd
  have left : u.readsLeft ty ≤ k := by
    rw [State.readsLeft]
    split <;> omega
  obtain ⟨⟨taken, reading, all⟩ | done, rests⟩ := stepN_codec (fun h ht => h.of_codecTurn hv ht) atEnd agenda left rest
  · have held : byteStepOf ty t = t := by
      rw [reading.codecTurn_eq] at rests
      exact Host.Outcome.next.inj rests
    obtain ⟨empty, opened⟩ := byteStepOf_eq_self reading.busy held
    rw [empty, List.append_nil] at all
    exact .inr ⟨all ▸ reading, empty, opened⟩
  · exact .inl done

/-- Settles O30: taking bytes keeps the decode loop's outcome, and bytes behind the value do not change it. -/
theorem streamReadAgreesWithBufferRead : Obligations.StreamReadAgreesWithBufferRead := by
  intro s t ty turns k hv accepted ha allowed hk run l
  rcases readingOrDone_after_turns hv accepted ha allowed (by omega) run with done | ⟨reading, empty, opened⟩
  · split
    · have rest := done.rest
      rw [done.consumed] at rest
      refine ⟨_, exec_read_readReport ty _, done.idle, done.done, done.ok, ?_⟩
      rw [readReport, if_pos hv]
      exact ⟨done.result, done.consumed, rest⟩
    · next unended => exact absurd done.ended unended
  · have count : t.n = l.length := reading.count
    split
    · next ended =>
      rcases ended with ended | ⟨b, hb, small⟩ | full
      · simp [opened] at ended
      · exact absurd (reading.goesOn b (List.mem_of_mem_take hb)) (Nat.not_le_of_lt small)
      · exact absurd reading.belowCap (by omega)
    · exact ⟨reading.busy, reading.notDone, empty, count⟩

end Sys2Proof.Machine
end

/-! ## VarLong values survive a WRITE and the READ of its bytes (41_varlong.md R89) -/

section
namespace Sys2Proof.Machine

/-- Settles O24: the codec round trip of the variable-length types (`exec_read_exec_write`) at the VarLong width, where
W = 64 and CAP = 10 (R84). -/
theorem varLongRoundTrip : Obligations.VarLongRoundTrip :=
  fun _ lo hi => exec_read_exec_write (ty := .varlong) rfl lo hi

end Sys2Proof.Machine
end

/-! ## Big-endian sums (30_encoding.md R56, R61; 42_fixed_width.md R92) -/

section
namespace Sys2Proof.Machine

theorem bigEndianSum_nil : bigEndianSum [] = 0 := rfl

/-- The first byte is the most significant. -/
theorem bigEndianSum_cons (b : Byte) (rest : List Byte) :
    bigEndianSum (b :: rest) = b.toNat * 2 ^ (8 * rest.length) + bigEndianSum rest := by
  simp only [bigEndianSum, List.length_cons, Finset.sum_range_succ', List.getD_cons_zero, List.getD_cons_succ]
  rw [add_comm]
  congr 1
  exact Finset.sum_congr rfl fun i _ => by rw [show rest.length + 1 - 1 - (i + 1) = rest.length - 1 - i by omega]

/-- A byte behind the others moves them up by 8 bits (R93). -/
theorem bigEndianSum_concat (l : List Byte) (b : Byte) : bigEndianSum (l ++ [b]) = bigEndianSum l * 256 + b.toNat := by
  induction l with
  | nil => simp [bigEndianSum_cons, bigEndianSum_nil]
  | cons c rest ih =>
    have wider : 2 ^ (8 * (rest.length + 1)) = 2 ^ (8 * rest.length) * 256 := pow_add 2 (8 * rest.length) 8
    rw [List.cons_append, bigEndianSum_cons, bigEndianSum_cons, ih, List.length_append, List.length_singleton, wider]
    ring

/-- The recursive sum FixDecode computes is the big-endian sum (R92). -/
theorem fixMagnitude_eq_bigEndianSum (l : List Byte) : fixMagnitude l = bigEndianSum l := by
  induction l with
  | nil => rfl
  | cons b rest ih => rw [fixMagnitude, bigEndianSum_cons, ih]

theorem bigEndianSum_lt (l : List Byte) : bigEndianSum l < 2 ^ (8 * l.length) :=
  fixMagnitude_eq_bigEndianSum l ▸ fixMagnitude_lt l

theorem bigEndianSum_take_lt {N : Nat} {l : List Byte} (h : N ≤ l.length) : bigEndianSum (l.take N) < 2 ^ (8 * N) := by
  have bound := bigEndianSum_lt (l.take N)
  rwa [List.length_take_of_le h] at bound

/-- Bit 7 of the first byte is the top bit of the sum. -/
theorem bigEndianSum_cons_lt_iff (b : Byte) (rest : List Byte) :
    bigEndianSum (b :: rest) < 2 ^ (8 * (rest.length + 1) - 1) ↔ b.toNat < 128 := by
  have half : 2 ^ (8 * (rest.length + 1) - 1) = 128 * 2 ^ (8 * rest.length) := by
    rw [show 8 * (rest.length + 1) - 1 = 7 + 8 * rest.length by omega, pow_add]
    rfl
  have low := bigEndianSum_lt rest
  rw [half, bigEndianSum_cons]
  constructor
  · intro h
    exact Nat.lt_of_mul_lt_mul_right ((Nat.le_add_right _ _).trans_lt h)
  · intro h
    calc b.toNat * 2 ^ (8 * rest.length) + bigEndianSum rest
        < (b.toNat + 1) * 2 ^ (8 * rest.length) := by rw [Nat.add_mul]; omega
      _ ≤ 128 * 2 ^ (8 * rest.length) := Nat.mul_le_mul_right _ h

/-- The sum of a magnitude's wire format is the magnitude, as far as N bytes hold it. -/
theorem bigEndianSum_of_isFixedWire {N u : Nat} {l : List Byte} (h : isFixedWire N u l) :
    bigEndianSum l = u % 2 ^ (8 * N) := by
  obtain ⟨rfl, bytes⟩ := h
  induction l with
  | nil => simp [bigEndianSum_nil, Nat.mod_one]
  | cons b rest ih =>
    have first := bytes 0 b rfl
    have tail := ih fun i c hc => by
      have byte := bytes (i + 1) c hc
      rwa [show (b :: rest).length - 1 - (i + 1) = rest.length - 1 - i by rw [List.length_cons]; omega] at byte
    have wider : 2 ^ (8 * (rest.length + 1)) = 2 ^ (8 * rest.length) * 256 := pow_add 2 (8 * rest.length) 8
    rw [bigEndianSum_cons, tail, first, List.length_cons, Nat.add_sub_cancel, Nat.sub_zero, wider, Nat.mod_mul]
    ring

end Sys2Proof.Machine
end

/-! ## Fixed-width buffer reads (42_fixed_width.md R92, R113) -/

section
namespace Sys2Proof.Machine

/-- A fixed-width type is known by its width. -/
theorem fixed_of_width {ty : CodecType} {N : Nat}
    (h : (ty = .int ∨ ty = .uint) ∧ N = 4 ∨ (ty = .long ∨ ty = .ulong) ∧ N = 8) :
    ty.isVariable = false ∧ N = ty.cap := by
  rcases h with ⟨rfl | rfl, rfl⟩ | ⟨rfl | rfl, rfl⟩ <;> exact ⟨rfl, rfl⟩

/-- The four fixed-width commands of an entry point, by their type. -/
theorem exists_fixed_instrOf {o : Op} {i : Instr} {N : Nat}
    (h : (i = instrOf .int o ∨ i = instrOf .uint o) ∧ N = 4 ∨ (i = instrOf .long o ∨ i = instrOf .ulong o) ∧ N = 8) :
    ∃ ty : CodecType, ty.isVariable = false ∧ i = instrOf ty o ∧ N = ty.cap := by
  rcases h with ⟨rfl | rfl, rfl⟩ | ⟨rfl | rfl, rfl⟩
  exacts [⟨.int, rfl, rfl, rfl⟩, ⟨.uint, rfl, rfl, rfl⟩, ⟨.long, rfl, rfl, rfl⟩, ⟨.ulong, rfl, rfl, rfl⟩]

/-- A fixed-width type reads a magnitude of its width as two's complement or as it is (R92, R93). -/
theorem accValue_fixed {ty : CodecType} {acc : Nat} (hv : ty.isVariable = false) (h : acc < 2 ^ (8 * ty.cap)) :
    accValue ty acc = if ty.signed then twosComplement (8 * ty.cap) acc else acc := by
  rw [accValue, if_neg (by simp [hv])]
  cases ty with
  | int => exact sext_eq_twosComplement (k := 31) h
  | long => exact sext_eq_twosComplement (k := 63) h
  | uint | ulong => rfl
  | varint | varlong => cases hv

theorem readReport_fixed_short {ty : CodecType} {l : List Byte} (hv : ty.isVariable = false) (h : l.length < ty.cap) :
    readReport ty l = none := by
  rw [readReport, if_neg (by simp [hv]), if_pos h]

theorem readReport_fixed {ty : CodecType} {l : List Byte} (hv : ty.isVariable = false) (h : ty.cap ≤ l.length) :
    readReport ty l = some (accValue ty (bigEndianSum (l.take ty.cap)), ty.cap) := by
  rw [readReport, if_neg (by simp [hv]), if_neg (Nat.not_lt_of_le h), fixDecode, List.length_take_of_le h,
    fixMagnitude_eq_bigEndianSum, accValue, if_neg (by simp [hv])]

/-- A fixed-width READ of an input that is long enough. -/
theorem exec_read_fixed {ty : CodecType} {s : State} (hv : ty.isVariable = false) (h : ty.cap ≤ s.ibuf.length) :
    exec (instrOf ty .read) s = .next (State.completedWith .ok
      { s with result := some (accValue ty (bigEndianSum (s.ibuf.take ty.cap))), consumed := ty.cap }) := by
  rw [exec_read_readReport, readReport_fixed hv h]
  rfl

/-- Settles O21: the recursive sum of FixDecode is the big-endian sum, which the width bounds. -/
theorem fixedReadDecodes : Obligations.FixedReadDecodes := by
  intro s i N command
  obtain ⟨ty, hv, rfl, rfl⟩ := exists_fixed_instrOf (o := .read) command
  rw [instrOf_ty]
  constructor
  · intro long u v
    have bound := bigEndianSum_take_lt long
    have value : v = accValue ty u := (accValue_fixed hv bound).symm
    rw [value]
    exact ⟨exec_read_fixed hv long, accValue_inDomain fun _ => bound⟩
  · intro short
    rw [exec_read_readReport, readReport_fixed_short hv short]
    rfl

/-- A magnitude is its two's complement reading, or `2^W` above it when the top bit is set (R113). -/
theorem natCast_eq_twosComplement (W m : Nat) :
    (m : Int) = if m < 2 ^ (W - 1) then twosComplement W m else twosComplement W m + 2 ^ W := by
  rw [twosComplement]
  split <;> omega

/-- The READs of a signed and an unsigned type of one width, of the same input. -/
theorem exec_read_signed_unsigned {a b : CodecType} {s : State} {first : Byte} (ha : a.isVariable = false)
    (hb : b.isVariable = false) (cap : b.cap = a.cap) (signed : a.signed = true) (unsigned : b.signed = false)
    (head : s.ibuf.head? = some first) (long : a.cap ≤ s.ibuf.length) :
    ∃ t u x y, exec (instrOf a .read) s = .next t ∧ exec (instrOf b .read) s = .next u ∧
      t.result = some x ∧ u.result = some y ∧ y = if 128 ≤ first.toNat then x + 2 ^ (8 * a.cap) else x := by
  have bound := bigEndianSum_take_lt long
  refine ⟨_, _, _, _, exec_read_fixed ha long, exec_read_fixed hb (cap.trans_le long), rfl, rfl, ?_⟩
  obtain ⟨rest, input⟩ := List.head?_eq_some_iff.1 head
  obtain ⟨k, hk⟩ : ∃ k, a.cap = k + 1 := ⟨a.cap - 1, by have pos := (cap_bounds a).1; omega⟩
  have top := bigEndianSum_cons_lt_iff first (rest.take k)
  rw [List.length_take_of_le (by simpa [input, hk] using long), ← List.take_succ_cons, ← input, ← hk] at top
  rw [accValue_fixed hb (by rwa [cap]), unsigned, if_neg (by decide), cap, accValue_fixed ha bound, signed, if_pos rfl,
    natCast_eq_twosComplement (8 * a.cap)]
  simp only [top, ← Nat.not_lt, ite_not]

/-- Settles O22: WRITE depends on the width alone (R56); the READs differ in the top bit of the sum, which is bit 7 of
the first byte. -/
theorem signedAndUnsignedShareBytes : Obligations.SignedAndUnsignedShareBytes := by
  intro a b W types
  rcases types with ⟨rfl, rfl, rfl⟩ | ⟨rfl, rfl, rfl⟩
  · refine ⟨fun s lo hi => ?_, fun s first =>
      exec_read_signed_unsigned (a := .int) (b := .uint) rfl rfl rfl rfl rfl⟩
    obtain ⟨l, ⟨len, -⟩, run⟩ := fixedWriteIsBigEndian s 4 (.inl rfl)
    exact ⟨_, run .intWrite (by decide) (le_trans (by decide) lo) hi,
      run .uintWrite (by decide) lo (le_trans hi (by decide)), rfl, len⟩
  · refine ⟨fun s lo hi => ?_, fun s first =>
      exec_read_signed_unsigned (a := .long) (b := .ulong) rfl rfl rfl rfl rfl⟩
    obtain ⟨l, ⟨len, -⟩, run⟩ := fixedWriteIsBigEndian s 8 (.inr rfl)
    exact ⟨_, run .longWrite (by decide) (le_trans (by decide) lo) hi,
      run .ulongWrite (by decide) lo (le_trans hi (by decide)), rfl, len⟩

end Sys2Proof.Machine
end

/-! ## Fixed-width values survive a WRITE and the READ of its bytes (42_fixed_width.md R111) -/

section
namespace Sys2Proof.Machine

/-- A fixed-width type reads the magnitude of a value of its domain as that value. -/
theorem accValue_emod {ty : CodecType} {v : Int} (hv : ty.isVariable = false) (lo : domainLow ty ≤ v)
    (hi : v ≤ domainHigh ty) : accValue ty (v % 2 ^ (8 * ty.cap)).toNat = v := by
  rw [accValue_fixed hv (emod_two_pow_toNat_lt v _)]
  cases ty with
  | int => exact twosComplement_emod (k := 31) lo hi
  | long => exact twosComplement_emod (k := 63) lo hi
  | uint =>
    simp only [domainLow, domainHigh] at lo hi
    show ((v % 2 ^ 32).toNat : Int) = v
    omega
  | ulong =>
    simp only [domainLow, domainHigh] at lo hi
    show ((v % 2 ^ 64).toNat : Int) = v
    omega
  | varint | varlong => cases hv

/-- What a fixed-width READ makes of the wire format of a value of its domain and of any bytes behind it. -/
theorem exec_read_of_isFixedWire {ty : CodecType} {v : Int} {l x : List Byte} {u : State}
    (hv : ty.isVariable = false) (lo : domainLow ty ≤ v) (hi : v ≤ domainHigh ty)
    (wire : isFixedWire ty.cap (v % 2 ^ (8 * ty.cap)).toNat l) (hu : u.ibuf = l ++ x) :
    exec (instrOf ty .read) u = .next (State.completedWith .ok { u with result := some v, consumed := ty.cap }) := by
  have len := wire.1
  have sum := bigEndianSum_of_isFixedWire wire
  rw [Nat.mod_eq_of_lt (emod_two_pow_toNat_lt v _)] at sum
  rw [exec_read_fixed hv (by rw [hu, List.length_append]; omega), hu, List.take_left' len, sum, accValue_emod hv lo hi]

/-- Settles O25: the big-endian sum of the N bytes that WRITE emits is the magnitude; no byte behind them is read. -/
theorem fixedRoundTrip : Obligations.FixedRoundTrip := by
  intro s ty N types lo hi
  obtain ⟨l, wire, run⟩ := fixedWriteIsBigEndian s N (types.imp And.right And.right)
  have write : exec (instrOf ty .write) s = .next (State.completedWith .ok { s with obuf := l }) := by
    refine run _ ?_ (by rwa [instrOf_ty]) (by rwa [instrOf_ty])
    rcases types with ⟨rfl | rfl, rfl⟩ | ⟨rfl | rfl, rfl⟩ <;> decide
  obtain ⟨hv, rfl⟩ := fixed_of_width types
  refine ⟨_, write, rfl, fun u x (hu : u.ibuf = l ++ x) => ?_⟩
  refine ⟨_, exec_read_of_isFixedWire hv lo hi wire hu, rfl, rfl, rfl, wire.1, ?_⟩
  show u.ibuf.drop ty.cap = x
  rw [hu, List.drop_left' wire.1]

end Sys2Proof.Machine
end

/-! ## One step of a fixed-width stream read (42_fixed_width.md R93) -/

section
namespace Sys2Proof.Machine

theorem accWithByte_fixed {ty : CodecType} (hv : ty.isVariable = false) (acc n : Nat) (b : Byte) :
    accWithByte ty acc n b = acc * 256 + b.toNat := by
  rw [accWithByte, if_neg (by simp [hv])]

theorem endsRead_fixed_iff {ty : CodecType} (hv : ty.isVariable = false) (n : Nat) (b : Byte) :
    endsRead ty n b = true ↔ n + 1 = ty.cap := by
  simp [endsRead, hv]

/-- A byte taken keeps ACC below the width of the bytes taken (R25). -/
theorem acc_mul_add_lt {acc n : Nat} (b : Byte) (h : acc < 2 ^ (8 * n)) : acc * 256 + b.toNat < 2 ^ (8 * (n + 1)) :=
  accWithByte_lt (ty := .int) b h

/-- The byte that fills the width ends the read with the value of ACC. -/
theorem byteStepOf_fixed_last {ty : CodecType} {s : State} {b : Byte} {rest : List Byte} (hv : ty.isVariable = false)
    (head : s.sin = b :: rest) (last : s.n + 1 = ty.cap) :
    byteStepOf ty s = State.completedWith .ok
      { s with sin := rest, acc := s.acc * 256 + b.toNat, n := ty.cap,
               result := some (accValue ty (s.acc * 256 + b.toNat)), consumed := ty.cap } := by
  rw [byteStepOf_byte head, if_pos ((endsRead_fixed_iff hv _ _).2 last), State.takeByte, accWithByte_fixed hv, last]
  rfl

/-- An earlier byte is taken, and the read goes on. -/
theorem byteStepOf_fixed_more {ty : CodecType} {s : State} {b : Byte} {rest : List Byte} (hv : ty.isVariable = false)
    (head : s.sin = b :: rest) (more : s.n + 1 ≠ ty.cap) : byteStepOf ty s = s.takeByte ty b rest := by
  rw [byteStepOf_byte head, if_neg (by rwa [endsRead_fixed_iff hv])]

/-- Settles O29: the answers of the stream, and whether the byte taken is the last of the width. -/
theorem fixedStreamStep : Obligations.FixedStreamStep := by
  intro s i NB command phase bound
  obtain ⟨ty, hv, rfl, rfl⟩ := exists_fixed_instrOf (o := .reads) command
  rw [exec_reads_of_phase phase, instrOf_ty]
  refine ⟨fun empty opened => ?_, fun empty ended => ?_, fun b rest head => ⟨fun last => ?_, fun more => ?_⟩⟩
  · rw [byteStepOf_hold empty opened]
  · rw [byteStepOf_eos empty ended, if_neg (by simp [hv])]
    rfl
  · have value := accValue_fixed hv (last ▸ acc_mul_add_lt b bound)
    rw [byteStepOf_fixed_last hv head last, value, last]
  · rw [byteStepOf_fixed_more hv head more, State.takeByte, accWithByte_fixed hv]

end Sys2Proof.Machine
end

/-! ## Fixed-width stream reads (42_fixed_width.md R93; 60_exceptions.md R119; 70_reset_and_hazards.md R143) -/

section
namespace Sys2Proof.Machine

/-! ### A fixed-width READS in progress -/

/-- A fixed-width READS is in progress and has taken the bytes `taken`, fewer than its width: ACC is their sum. -/
structure State.FixedReading (ty : CodecType) (taken : List Byte) (s : State) : Prop where
  phase : s.phase = .streamRead ty
  command : decode s.cmd = .ok (instrOf ty .reads)
  busy : s.busy = true
  notDone : s.done = false
  count : s.n = taken.length
  belowCap : s.n < ty.cap
  sum : s.acc = bigEndianSum taken

theorem State.readsAccepted.fixedReading {ty : CodecType} {s : State} (h : s.readsAccepted ty) :
    s.FixedReading ty [] := by
  obtain ⟨phase, command, busy, notDone, acc, n⟩ := h
  exact ⟨phase, command, busy, notDone, n, by rw [n]; exact (cap_bounds ty).1, acc⟩

theorem State.FixedReading.codecTurn_eq {ty : CodecType} {taken : List Byte} {s : State} (h : s.FixedReading ty taken) :
    codecTurn s = .next (byteStepOf ty s) := by
  rw [codecTurn_of_decode h.busy h.command, exec_reads_of_phase h.phase]

/-- The byte that fills the width ends the read with the value of all the bytes taken. -/
theorem State.FixedReading.byteStepOf_last {ty : CodecType} {taken rest : List Byte} {b : Byte} {s : State}
    (hv : ty.isVariable = false) (h : s.FixedReading ty taken) (head : s.sin = b :: rest) (last : s.n + 1 = ty.cap) :
    byteStepOf ty s = State.completedWith .ok
      { s with sin := rest, acc := bigEndianSum (taken ++ [b]), n := ty.cap,
               result := some (accValue ty (bigEndianSum (taken ++ [b]))), consumed := ty.cap } := by
  rw [byteStepOf_fixed_last hv head last, h.sum, bigEndianSum_concat]

theorem State.FixedReading.takeByte {ty : CodecType} {taken : List Byte} {b : Byte} {s : State}
    (hv : ty.isVariable = false) (h : s.FixedReading ty taken) (more : s.n + 1 ≠ ty.cap) (rest : List Byte) :
    (s.takeByte ty b rest).FixedReading ty (taken ++ [b]) where
  phase := h.phase
  command := h.command
  busy := h.busy
  notDone := h.notDone
  count := by simp [State.takeByte, h.count]
  belowCap := lt_of_le_of_ne h.belowCap more
  sum := by
    rw [bigEndianSum_concat, ← h.sum]
    exact accWithByte_fixed hv _ _ _

/-! ### A stream that has the bytes -/

/-- The bytes a fixed-width READS still needs, at the front of SIN, take one codec step each. -/
theorem State.FixedReading.stepN_eq {ty : CodecType} {taken l rest : List Byte} {s : State}
    (hv : ty.isVariable = false) (h : s.FixedReading ty taken) (ha : s.agenda = [])
    (needed : s.n + l.length = ty.cap) (hs : s.sin = l ++ rest) :
    stepN l.length s = .next (State.completedWith .ok
      { s with sin := rest, acc := bigEndianSum (taken ++ l), n := ty.cap,
               result := some (accValue ty (bigEndianSum (taken ++ l))), consumed := ty.cap }) := by
  induction l generalizing taken s with
  | nil => exact absurd needed (Nat.ne_of_lt h.belowCap)
  | cons b l ih =>
    have first : step s = .next (byteStepOf ty s) := (step_nil ha).trans h.codecTurn_eq
    rw [List.length_cons] at needed
    rw [List.cons_append] at hs
    rw [List.length_cons, stepN_succ_of_next first]
    cases l with
    | nil =>
      rw [h.byteStepOf_last hv hs needed]
      rfl
    | cons c l =>
      have more : s.n + 1 ≠ ty.cap := by
        rw [List.length_cons] at needed
        omega
      have goesOn : s.n + 1 + (c :: l).length = ty.cap := by omega
      rw [byteStepOf_fixed_more hv hs more, ih (h.takeByte hv more _) ha goesOn rfl, List.append_assoc]
      rfl

/-- Settles O32: each of the NB steps takes one byte, and the value is that of their big-endian sum. -/
theorem fixedStreamReadTakesItsWidth : Obligations.FixedStreamReadTakesItsWidth := by
  intro s ty l rest hv accepted ha len hs v
  have value : v = accValue ty (bigEndianSum l) := (accValue_fixed hv (len ▸ bigEndianSum_lt l)).symm
  have needed : s.n + l.length = ty.cap := by rw [accepted.fixedReading.count, len]; exact Nat.zero_add _
  rw [value, ← len, accepted.fixedReading.stepN_eq hv ha needed hs, len]
  rfl

/-! ### The two ends of a fixed-width READS -/

/-- A fixed-width READS has completed with the value of the first NB of the bytes `l`, and has left the rest in SIN. -/
structure State.FixedReadWhole (ty : CodecType) (l : List Byte) (s : State) : Prop where
  idle : s.busy = false
  done : s.done = true
  ok : s.status = .ok
  enough : ty.cap ≤ l.length
  result : s.result = some (accValue ty (bigEndianSum (l.take ty.cap)))
  consumed : s.consumed = ty.cap
  rest : s.sin = l.drop ty.cap

/-- A fixed-width READS has come to the end of the stream after the bytes `l`, fewer than NB: they are counted and lost,
and RESULT is `r` as before (R119). -/
structure State.FixedReadShort (ty : CodecType) (r : Option Int) (l : List Byte) (s : State) : Prop where
  idle : s.busy = false
  done : s.done = true
  short : s.status = .shortInput
  few : l.length < ty.cap
  ended : s.sinEos = true
  result : s.result = r
  consumed : s.consumed = l.length
  rest : s.sin = []

/-- A fixed-width READS, accepted with `r` in RESULT and with the bytes `l` delivered to it, stands in between or at one
of its ends. -/
def State.FixedReadingOrDone (ty : CodecType) (r : Option Int) (l : List Byte) (s : State) : Prop :=
  (∃ taken, s.FixedReading ty taken ∧ s.result = r ∧ l = taken ++ s.sin) ∨
    s.FixedReadWhole ty l ∨ s.FixedReadShort ty r l

theorem State.FixedReading.short_of_eos {ty : CodecType} {taken : List Byte} {s : State}
    (hv : ty.isVariable = false) (h : s.FixedReading ty taken) (empty : s.sin = []) (eos : s.sinEos = true) :
    (byteStepOf ty s).FixedReadShort ty s.result taken := by
  rw [byteStepOf_eos empty eos, if_neg (by simp [hv])]
  exact ⟨rfl, rfl, rfl, h.count ▸ h.belowCap, eos, rfl, h.count, empty⟩

theorem State.FixedReading.whole_of_last {ty : CodecType} {taken rest : List Byte} {b : Byte} {s : State}
    (hv : ty.isVariable = false) (h : s.FixedReading ty taken) (head : s.sin = b :: rest) (last : s.n + 1 = ty.cap) :
    (byteStepOf ty s).FixedReadWhole ty (taken ++ b :: rest) := by
  have width : (taken ++ [b]).length = ty.cap := by rw [List.length_append, ← h.count]; exact last
  rw [List.append_cons, h.byteStepOf_last hv head last]
  exact
    { idle := rfl
      done := rfl
      ok := rfl
      enough := by rw [List.length_append, width]; exact Nat.le_add_right _ _
      result := by rw [List.take_left' width]; rfl
      consumed := rfl
      rest := (List.drop_left' width).symm }

/-! ### The turns of the codec and of the source -/

/-- The codec's turn keeps a fixed-width READS between its start and its end, and either changes nothing or brings it
closer. -/
theorem State.FixedReadingOrDone.of_codecTurn {ty : CodecType} {r : Option Int} {l : List Byte} {s t : State}
    (hv : ty.isVariable = false) (h : s.FixedReadingOrDone ty r l) (ht : codecTurn s = .next t) :
    t.FixedReadingOrDone ty r l ∧ (t = s ∨ t.readsLeft ty < s.readsLeft ty) := by
  rcases h with ⟨taken, reading, rfl, rfl⟩ | done
  · cases reading.codecTurn_eq.symm.trans ht
    refine ⟨?_, byteStepOf_self_or_less reading.busy reading.belowCap⟩
    cases sin : s.sin with
    | nil =>
      rw [List.append_nil]
      cases eos : s.sinEos with
      | false =>
        rw [byteStepOf_hold sin eos]
        exact .inl ⟨taken, reading, rfl, by simp [sin]⟩
      | true => exact .inr (.inr (reading.short_of_eos hv sin eos))
    | cons b rest =>
      by_cases last : s.n + 1 = ty.cap
      · exact .inr (.inl (reading.whole_of_last hv sin last))
      · rw [byteStepOf_fixed_more hv sin last]
        exact .inl ⟨taken ++ [b], reading.takeByte hv last rest, rfl, by simp [State.takeByte]⟩
  · have idle : s.busy = false := done.elim (·.idle) (·.idle)
    cases (codecTurn_idle idle).symm.trans ht
    exact ⟨.inr done, .inl rfl⟩

theorem State.FixedReadWhole.append {ty : CodecType} {l : List Byte} {s : State} (h : s.FixedReadWhole ty l)
    (x : List Byte) : ({ s with sin := s.sin ++ x } : State).FixedReadWhole ty (l ++ x) :=
  { h with
    enough := by rw [List.length_append]; exact h.enough.trans (Nat.le_add_right _ _)
    result := by rw [List.take_append_of_le_length h.enough]; exact h.result
    rest := by rw [List.drop_append_of_le_length h.enough, ← h.rest] }

theorem State.FixedReadingOrDone.of_sourceTurn {ty : CodecType} {r : Option Int} {l : List Byte} {s t : State}
    (a : SourceAction) (h : s.FixedReadingOrDone ty r l) (ht : sourceTurn a s = .next t) :
    t.FixedReadingOrDone ty r (l ++ delivered [.source a]) := by
  cases a with
  | append x =>
    obtain ⟨opened, rfl⟩ := sourceTurn_append ht
    rw [show delivered [.source (.append x)] = x from List.append_nil x]
    rcases h with ⟨taken, reading, result, rfl⟩ | whole | short
    · exact .inl ⟨taken, { reading with }, result, List.append_assoc _ _ _⟩
    · exact .inr (.inl (whole.append x))
    · exact absurd short.ended (by simp [opened])
  | endStream =>
    obtain rfl := sourceTurn_endStream ht
    rw [show delivered [.source .endStream] = [] from rfl, List.append_nil]
    rcases h with ⟨taken, reading, result, rfl⟩ | whole | short
    · exact .inl ⟨taken, { reading with }, result, rfl⟩
    · exact .inr (.inl { whole with })
    · exact .inr (.inr { short with ended := rfl })

theorem State.FixedReadingOrDone.withAgenda {ty : CodecType} {r : Option Int} {l : List Byte} {s : State}
    (rest : List Turn) (h : s.FixedReadingOrDone ty r l) :
    ({ s with agenda := rest } : State).FixedReadingOrDone ty r l := by
  rcases h with ⟨taken, reading, result, rfl⟩ | whole | short
  · exact .inl ⟨taken, { reading with }, result, rfl⟩
  · exact .inr (.inl { whole with })
  · exact .inr (.inr { short with })

/-! ### Any timing -/

/-- After the agenda's turns and enough codec steps the READS has completed, with its width or short of it, or holds
with every byte taken. -/
theorem fixedReadingOrDone_after_turns {ty : CodecType} {turns : List Turn} {k : Nat} {s t : State}
    (hv : ty.isVariable = false) (accepted : s.readsAccepted ty) (ha : s.agenda = turns)
    (allowed : turns.all isCodecOrSource = true) (hk : ty.cap ≤ k) (run : stepN (turns.length + k) s = .next t) :
    t.FixedReadWhole ty (s.sin ++ delivered turns) ∨ t.FixedReadShort ty s.result (s.sin ++ delivered turns) ∨
      t.FixedReading ty (s.sin ++ delivered turns) ∧ t.sin = [] ∧ t.sinEos = false := by
  obtain ⟨u, agenda, atEnd, rest⟩ := stepN_turns (P := State.FixedReadingOrDone ty s.result) .withAgenda
    (fun h ht => (h.of_codecTurn hv ht).1) .of_sourceTurn (.inl ⟨[], accepted.fixedReading, rfl, rfl⟩) ha allowed run
  rw [List.nil_append] at atEnd
  have left : u.readsLeft ty ≤ k := by
    rw [State.readsLeft]
    split <;> omega
  obtain ⟨⟨taken, reading, -, all⟩ | whole | short, rests⟩ :=
    stepN_codec (fun h ht => h.of_codecTurn hv ht) atEnd agenda left rest
  · have held : byteStepOf ty t = t := by
      rw [reading.codecTurn_eq] at rests
      exact Host.Outcome.next.inj rests
    obtain ⟨empty, opened⟩ := byteStepOf_eq_self reading.busy held
    rw [empty, List.append_nil] at all
    exact .inr (.inr ⟨all ▸ reading, empty, opened⟩)
  · exact .inl whole
  · exact .inr (.inl short)

/-- Settles O31: ACC is the sum of the bytes taken, and bytes behind the width are not read. -/
theorem fixedStreamReadInAnyTiming : Obligations.FixedStreamReadInAnyTiming := by
  intro s t ty turns k hv accepted ha allowed hk run l
  rcases fixedReadingOrDone_after_turns hv accepted ha allowed (by omega) run with
    whole | short | ⟨reading, empty, opened⟩
  · rw [if_pos whole.enough]
    exact ⟨_, exec_read_fixed hv whole.enough, whole.idle, whole.done, whole.ok, whole.result, whole.consumed,
      whole.rest⟩
  · rw [if_neg (Nat.not_le_of_lt short.few), if_pos short.ended]
    exact ⟨short.idle, short.done, short.short, short.result, short.consumed, short.rest⟩
  · have few : l.length < ty.cap := reading.count ▸ reading.belowCap
    rw [if_neg (Nat.not_le_of_lt few), if_neg (by simp [opened])]
    exact ⟨reading.busy, reading.notDone, empty, reading.count⟩

end Sys2Proof.Machine
end

/-! ## Errors: reserved words, which error ends a command, and with which outputs (60_exceptions.md R114 to R122) -/

section
namespace Sys2Proof.Machine

/-! ### Reserved words -/

/-- Settles O5: a reserved word does not decode, so the state that accepts it ends with ILLEGAL_COMMAND. -/
theorem reservedWordCompletesIllegal : Obligations.ReservedWordCompletesIllegal := by
  intro s w rest reserved ha hb
  obtain ⟨-, -, rejects⟩ := decodeAndEncodeAgree
  obtain ⟨e, he⟩ := (rejects w).2 reserved
  rw [step_writeCmd ha hb, runCommand_of_reserved (s := accept w _) he]
  rfl

/-! ### The causes of the two errors of a legal command -/

/-- A WRITE, or a WRITES in its accepting step, finds OPERAND outside the domain (R116, R122). -/
def RangeErrorCause (i : Instr) (s : State) : Prop :=
  (i.op = .write ∨ i.op = .writes ∧ s.sinkOffer = none) ∧ (s.operand < domainLow i.ty ∨ domainHigh i.ty < s.operand)

/-- A fixed-width READ finds too few bytes, or a fixed-width READS the end of the stream (R117). -/
def ShortInputCause (i : Instr) (s : State) : Prop :=
  i.ty.isVariable = false ∧ (i.op = .read ∧ s.ibuf.length < i.ty.cap ∨ i.op = .reads ∧ s.sin = [] ∧ s.sinEos = true)

theorem RangeErrorCause.entry {i : Instr} {s : State} (h : RangeErrorCause i s) : i.op = .write ∨ i.op = .writes :=
  h.1.imp_right And.left

theorem ShortInputCause.entry {i : Instr} {s : State} (h : ShortInputCause i s) : i.op = .read ∨ i.op = .reads :=
  h.2.imp And.left And.left

theorem not_shortInputCause_of_write {i : Instr} {s : State} (entry : i.op = .write ∨ i.op = .writes) :
    ¬ ShortInputCause i s := by
  intro short
  rcases short.entry with read | read <;> simp [read] at entry

/-- No command meets two errors at once (R122). -/
theorem RangeErrorCause.not_shortInputCause {i : Instr} {s : State} (range : RangeErrorCause i s) :
    ¬ ShortInputCause i s := not_shortInputCause_of_write range.entry

theorem ShortInputCause.not_rangeErrorCause {i : Instr} {s : State} (short : ShortInputCause i s) :
    ¬ RangeErrorCause i s := fun range => range.not_shortInputCause short

theorem exec_of_rangeErrorCause {i : Instr} {s : State} (h : RangeErrorCause i s) :
    exec i s = .next (finish .rangeError s) :=
  outOfRangeOperandIsRejected s i h.1 h.2

/-- Without a range error the operand of an accepted WRITE or WRITES has an encoding. -/
theorem encoderOf_ok_of_not_rangeErrorCause {ty : CodecType} {o : Op} {s : State}
    (entry : o = .write ∨ o = .writes ∧ s.sinkOffer = none) (inRange : ¬ RangeErrorCause (instrOf ty o) s) :
    ∃ l, encoderOf ty s.operand = .ok l := by
  rw [RangeErrorCause, instrOf_op, instrOf_ty] at inRange
  obtain ⟨lo, hi⟩ := not_or.1 fun outside => inRange ⟨entry, outside⟩
  exact encoderOf_ok (not_lt.1 lo) (not_lt.1 hi)

/-! ### How a command ends -/

/-- The ends of a command whose last codec step leads from `s` to `t`: with OK, neither error having a cause; or with the
error that has one, nothing else written but the CONSUMED of a READS, which counts the bytes lost (R119). -/
inductive EndsAs (i : Instr) (s t : State) : Prop where
  | ok (status : t.status = .ok) (inRange : ¬ RangeErrorCause i s) (enough : ¬ ShortInputCause i s)
  | rangeError (cause : RangeErrorCause i s) (next : t = finish .rangeError s)
  | shortInput (cause : ShortInputCause i s)
      (next : t = finish .shortInput { s with consumed := if i.op = .reads then s.n else s.consumed })

theorem endsAs_of_write {ty : CodecType} {s t : State} (h : exec (instrOf ty .write) s = .next t)
    (inRange : ¬ RangeErrorCause (instrOf ty .write) s) : EndsAs (instrOf ty .write) s t := by
  obtain ⟨l, hl⟩ := encoderOf_ok_of_not_rangeErrorCause (.inl rfl) inRange
  cases (exec_write_of_encoding hl).symm.trans h
  exact .ok rfl inRange (not_shortInputCause_of_write (.inl (instrOf_op _ _)))

theorem endsAs_of_writes {ty : CodecType} {s t : State} (h : exec (instrOf ty .writes) s = .next t)
    (running : s.done = false) (done : t.done = true) (inRange : ¬ RangeErrorCause (instrOf ty .writes) s) :
    EndsAs (instrOf ty .writes) s t := by
  have sends : ∃ l, exec (instrOf ty .writes) s = .next (streamWrite l s) := by
    cases offer : s.sinkOffer with
    | some l => exact ⟨l, exec_writes_of_offer offer⟩
    | none =>
      obtain ⟨l, hl⟩ := encoderOf_ok_of_not_rangeErrorCause (.inr ⟨rfl, offer⟩) inRange
      exact ⟨l, exec_writes_of_encoding offer hl⟩
  obtain ⟨l, e⟩ := sends
  cases e.symm.trans h
  rcases streamWrite_cases l s with ⟨-, sent⟩ | ⟨-, held⟩
  · exact .ok (by rw [sent]; rfl) inRange (not_shortInputCause_of_write (.inr (instrOf_op _ _)))
  · rw [held] at done
    cases running.symm.trans done

theorem endsAs_of_read {ty : CodecType} {s t : State} (h : exec (instrOf ty .read) s = .next t)
    (inRange : ¬ RangeErrorCause (instrOf ty .read) s) : EndsAs (instrOf ty .read) s t := by
  have cause : ShortInputCause (instrOf ty .read) s ↔ ty.isVariable = false ∧ s.ibuf.length < ty.cap := by
    simp [ShortInputCause, instrOf_op, instrOf_ty]
  rw [exec_read_readReport] at h
  cases h
  by_cases short : ty.isVariable = false ∧ s.ibuf.length < ty.cap
  · rw [readReport_fixed_short short.1 short.2]
    exact .shortInput (cause.2 short) (by rw [instrOf_op]; rfl)
  · refine .ok ?_ inRange (cause.not.2 short)
    rw [readReport]
    split
    · rfl
    · next fixed => rw [if_neg fun few => short ⟨Bool.eq_false_iff.2 fixed, few⟩]; rfl

/-- The step of a stream read that ends it. -/
theorem endsAs_of_byteStepOf {ty : CodecType} {s : State} (running : s.done = false)
    (done : (byteStepOf ty s).done = true) (inRange : ¬ RangeErrorCause (instrOf ty .reads) s) :
    EndsAs (instrOf ty .reads) s (byteStepOf ty s) := by
  have cause : ShortInputCause (instrOf ty .reads) s ↔ ty.isVariable = false ∧ s.sin = [] ∧ s.sinEos = true := by
    simp [ShortInputCause, instrOf_op, instrOf_ty]
  cases sin : s.sin with
  | cons b rest =>
    rw [byteStepOf_byte sin] at done ⊢
    split at done
    · next last =>
      rw [if_pos last]
      exact .ok rfl inRange (by simp [cause, sin])
    · cases running.symm.trans done
  | nil =>
    cases eos : s.sinEos with
    | false =>
      rw [byteStepOf_hold sin eos] at done
      cases running.symm.trans done
    | true =>
      rw [byteStepOf_eos sin eos]
      cases hv : ty.isVariable with
      | true => exact .ok rfl inRange (by simp [cause, hv])
      | false => exact .shortInput (cause.2 ⟨hv, sin, eos⟩) (by rw [instrOf_op]; rfl)

/-- The accepting step of a READS ends nothing; a later one is a step of its stream read. -/
theorem endsAs_of_reads {ty : CodecType} {s t : State} (h : exec (instrOf ty .reads) s = .next t)
    (running : s.done = false) (done : t.done = true) (inRange : ¬ RangeErrorCause (instrOf ty .reads) s) :
    EndsAs (instrOf ty .reads) s t := by
  rcases exec_reads_cases h with ⟨-, rfl⟩ | ⟨-, rfl⟩
  · cases running.symm.trans done
  · exact endsAs_of_byteStepOf running done inRange

/-- Everything a codec step that completes its command can do. -/
theorem endsAs_of_exec {i : Instr} {s t : State} (h : exec i s = .next t) (running : s.done = false)
    (done : t.done = true) : EndsAs i s t := by
  by_cases range : RangeErrorCause i s
  · exact .rangeError range (Host.Outcome.next.inj (h.symm.trans (exec_of_rangeErrorCause range)))
  · obtain ⟨ty, o, rfl⟩ := exists_instrOf i
    cases o with
    | write => exact endsAs_of_write h range
    | read => exact endsAs_of_read h range
    | reads => exact endsAs_of_reads h running done range
    | writes => exact endsAs_of_writes h running done range

/-- Settles O36: each end of a command has its own cause, and the two causes exclude each other. -/
theorem whichErrorAndWhen : Obligations.WhichErrorAndWhen := by
  intro i s t running h done
  show (t.status = .rangeError ↔ RangeErrorCause i s) ∧ (t.status = .shortInput ↔ ShortInputCause i s) ∧
    t.status ≠ .illegalCommand
  cases endsAs_of_exec h running done with
  | ok status inRange enough => simp [status, inRange, enough]
  | rangeError cause next => simp [next, cause, cause.not_shortInputCause]
  | shortInput cause next => simp [next, cause, cause.not_rangeErrorCause]

/-! ### The outputs of a command that ends with an error -/

/-- What R119 says of a state a command has left with an error, SOUT having been `sout` before its step. -/
def State.ErrorOutputs (sout : List Byte) (t : State) : Prop :=
  t.obufLen = 0 ∧ t.sout = sout ∧ t.resultValid = false ∧
    ((∃ ty, decode t.cmd = .ok (instrOf ty .reads)) → t.status = .shortInput ∧ t.consumed = t.n) ∧
    ((∀ ty, decode t.cmd ≠ .ok (instrOf ty .reads)) → t.consumed = 0)

theorem decode_reads_iff {w : Byte} {i : Instr} (h : decode w = .ok i) :
    (∃ ty, decode w = .ok (instrOf ty .reads)) ↔ i.op = .reads := by
  constructor
  · rintro ⟨ty, hr⟩
    cases h.symm.trans hr
    exact instrOf_op ty .reads
  · intro entry
    exact ⟨i.ty, by rw [h, ← entry, instr_eta]⟩

/-- Acceptance has cleared the outputs, so an end that writes at most CONSUMED leaves them so. -/
theorem State.Running.errorOutputs_finish {s : State} {st : Status} {k : Nat} (h : s.Running)
    (reads : (∃ ty, decode s.cmd = .ok (instrOf ty .reads)) → st = .shortInput ∧ k = s.n)
    (others : (∀ ty, decode s.cmd ≠ .ok (instrOf ty .reads)) → k = 0) :
    (finish st { s with consumed := k }).ErrorOutputs s.sout := by
  obtain ⟨-, result, -, obuf⟩ := h.cleared
  exact ⟨congrArg List.length obuf, rfl, congrArg Option.isSome result, reads, others⟩

/-- A codec step that ends a running command with an error. -/
theorem State.Running.errorOutputs_of_runCommand {s t : State} (h : s.Running) (run : runCommand s = .next t)
    (done : t.done = true) (failed : t.status ≠ .ok) : t.ErrorOutputs s.sout := by
  obtain ⟨-, -, consumed, -⟩ := h.cleared
  cases hd : decode s.cmd with
  | error e =>
    cases (runCommand_of_reserved hd).symm.trans run
    exact h.errorOutputs_finish (k := s.consumed) (by simp [hd]) fun _ => consumed
  | ok i =>
    have isReads := decode_reads_iff hd
    cases endsAs_of_exec ((runCommand_of_decode hd).symm.trans run) h.done done with
    | ok status => exact absurd status failed
    | rangeError cause next =>
      subst next
      refine h.errorOutputs_finish (k := s.consumed) (fun reads => ?_) fun _ => consumed
      rcases cause.entry with e | e <;> cases e.symm.trans (isReads.1 reads)
    | shortInput cause next =>
      subst next
      refine h.errorOutputs_finish (fun reads => ⟨rfl, if_pos (isReads.1 reads)⟩) fun others => ?_
      rw [if_neg fun entry => not_exists.2 others (isReads.2 entry), consumed]

/-- A step that completes a command runs it, from its acceptance or in progress. -/
theorem exists_running_of_step {s t : State} (h : s.Inv) (ht : step s = .next t)
    (command : s.busy = true ∨ ∃ w rest, s.agenda = .host (.writeCmd w) :: rest) (done : t.done = true) :
    ∃ u : State, u.Running ∧ u.sout = s.sout ∧ runCommand u = .next t := by
  rcases command with busy | ⟨w, rest, ha⟩
  · have running := h.running busy
    rcases step_next_cases ht with same | ⟨-, agenda, run⟩ | ⟨idle, -⟩ | ⟨rest, -, rfl⟩
    · have kept : t.block.done = s.block.done := congrArg State.done same
      cases running.done.symm.trans (kept.symm.trans done)
    · exact ⟨{ s with agenda := agenda }, { running with }, rfl, run⟩
    · cases busy.symm.trans idle
    · cases done
  · exact ⟨accept w { s with agenda := rest }, accept_running _ _, rfl, runCommand_of_step_writeCmd ha ht⟩

/-- Settles O37: the command that ends was running, its outputs as acceptance left them. -/
theorem outputsAfterAnError : Obligations.OutputsAfterAnError := by
  intro s t h ht command done failed
  obtain ⟨u, running, sout, run⟩ := exists_running_of_step h ht command done
  exact sout ▸ running.errorOutputs_of_runCommand run done failed

end Sys2Proof.Machine
end

/-! ## Reset (70_reset_and_hazards.md R132; 10_state.md R34, R35) -/

section
namespace Sys2Proof.Machine

/-- STAT reads only flags that reset clears, so it is the STAT of the reset state, whatever was in progress. -/
@[simp] theorem applyReset_stat (s : State) : (applyReset s).stat = 0x00 := by
  obtain ⟨-, -, -, stat, -⟩ := resetValues
  exact stat

/-- Reset does not look at what the block is doing. -/
theorem step_reset {s : State} {rest : List Turn} (ha : s.agenda = .reset :: rest) :
    step s = .next (applyReset { s with agenda := rest }) := step_cons ha

/-- Settles O7: the reset turn answers `applyReset`, whose fields are those of R34 for the block and the old ones for the
agents. -/
theorem resetAtAnyTime : Obligations.ResetAtAnyTime := by
  intro s rest ha
  exact ⟨applyReset { s with agenda := rest }, step_reset ha, by simp⟩

end Sys2Proof.Machine
end
